-- ==== Sys2Proof/Word.lean ====
section
/-! DEFINITION. The word type: one byte (spec R6, R7) and the index of a register (R21). -/

namespace Sys2Proof

/-- `XLEN` = 8: a register, a memory cell, an operand byte, an address (R6, R7, R26). -/
abbrev Byte := BitVec 8

/-- `NREG` = 8: the index of a register that exists, 0 to 7 (R6, R21). -/
abbrev RegIx := Fin 8

end Sys2Proof
end

