-- ==== Sys2Proof/Config.lean ====
section
/-! DEFINITION. The parameters of rule R6: the two that are open for a run and no part of its state (`ALU_EXT`, `OPCODE`),
and the fixed ones. The default of `OPCODE` is `defaultOpcodes` of Decode.lean. -/

namespace Sys2Proof

/-- The parameter `OPCODE`: the opcode byte of each mnemonic (R6, D3, U8). Any bytes may stand here; that no two of them
are equal is `OpcodeMap.Distinct` of Decode.lean. Log 7, log 28. -/
structure OpcodeMap where
  hlt  : Byte
  ldi  : Byte
  prn  : Byte
  push : Byte
  pop  : Byte
  call : Byte
  ret  : Byte
  cmp  : Byte
  jmp  : Byte
  jeq  : Byte
  jne  : Byte
  add  : Byte
  mul  : Byte
  sub  : Byte
  and  : Byte
  or   : Byte
  xor  : Byte
deriving DecidableEq, Repr

/-- What is fixed for a run and is no state of the machine (R6, R20). -/
structure Config where
  /-- `ALU_EXT`: SUB, AND, OR and XOR execute instead of failing (R6, D4; default false). Log 8. -/
  aluExt : Bool
  /-- `OPCODE`: the opcode byte of each mnemonic (R6, R62). -/
  opcodes : OpcodeMap
deriving DecidableEq, Repr

/-- `SP_INDEX`: the register used as stack pointer (R6, R22). -/
abbrev spIndex : RegIx := 7

/-- `SP_INIT`: the launch value of register 7 (R6, R33). UNVERIFIED by the spec's own note N4: log 6. -/
abbrev spInit : Byte := 0xF4

/-- `PC_INIT`: the launch value of the program counter (R6, R33). -/
abbrev pcInit : Byte := 0

/-- The highest address of the 256-cell memory, which no computed address may pass (R6, R46). -/
abbrev lastAddress : Nat := 255

end Sys2Proof
end

