-- ==== Sys2Proof/Syntax.lean ====
section
/-! DEFINITION. The instructions: one constructor per row of the opcode table (R62). -/

namespace Sys2Proof

/-- An instruction with its operand bytes as they stand in memory (R61, R64). `a` and `b` are register
fields: WHOLE bytes, of which 8 to 255 name no register (WellFormed.lean; raised as `OutOfRange`, R85). -/
inductive Instr where
  /-- Stop execution (R89). -/
  | hlt
  /-- Load the immediate byte into register `a` (R120). -/
  | ldi (a imm : Byte)
  /-- Emit register `a` on the output channel (R121). -/
  | prn (a : Byte)
  /-- Push register `a` (R132). -/
  | push (a : Byte)
  /-- Pop into register `a` (R133). -/
  | pop (a : Byte)
  /-- Push the return address and jump to register `a` (R134). -/
  | call (a : Byte)
  /-- Pop the return address into pc (R135). -/
  | ret
  /-- Compare registers `a` and `b`, set the flags (R150). -/
  | cmp (a b : Byte)
  /-- Jump to register `a` (R151). -/
  | jmp (a : Byte)
  /-- Jump to register `a` if E is set (R152). -/
  | jeq (a : Byte)
  /-- Jump to register `a` if E is clear (R153). -/
  | jne (a : Byte)
  /-- Add register `b` to register `a` (R101). -/
  | add (a b : Byte)
  /-- Multiply register `a` by register `b` (R102). -/
  | mul (a b : Byte)
  /-- Subtract register `b` from register `a`, under `ALU_EXT` (R104). -/
  | sub (a b : Byte)
  /-- Bitwise AND into register `a`, under `ALU_EXT` (R105). -/
  | and (a b : Byte)
  /-- Bitwise OR into register `a`, under `ALU_EXT` (R106). -/
  | or (a b : Byte)
  /-- Bitwise exclusive OR into register `a`, under `ALU_EXT` (R107). -/
  | xor (a b : Byte)
deriving DecidableEq, Repr

end Sys2Proof
end

