-- ==== Sys2Proof/WellFormed.lean ====
section
/-! DEFINITION. Which instructions are well formed: every register field names a register (R64). -/

namespace Sys2Proof

/-- A register field names a register when its whole byte is 0 to 7; no bit of it is masked (R64). -/
def namesRegister (b : Byte) : Bool := decide (b.toNat ≤ 7)

/-- Every register field of the instruction's format names a register (R61, R64, R85). The immediate of LDI
is no register field and may be any byte. -/
def Instr.wellFormed : Instr → Bool
  | .hlt | .ret => true
  | .ldi a _ => namesRegister a
  | .prn a | .push a | .pop a | .call a => namesRegister a
  | .jmp a | .jeq a | .jne a => namesRegister a
  | .cmp a b | .add a b | .mul a b => namesRegister a && namesRegister b
  | .sub a b | .and a b | .or a b | .xor a b => namesRegister a && namesRegister b

end Sys2Proof
end

