-- ==== Sys2Proof/Decode.lean ====
section
/-! DEFINITION. The encoding of 30_encoding.md: the opcode map (R62) with the default of the parameter `OPCODE`, the
dispatch classes (R63), the decoder, total on any bytes, and the encoder, both reading a given `OPCODE`; the layout of a
table word; the spec's assembly notation (R68). -/

namespace Sys2Proof

/-- The names of the opcode table's rows (R62). -/
inductive Mnemonic where
  | hlt | ldi | prn | push | pop | call | ret | cmp | jmp | jeq | jne
  | add | mul | sub | and | or | xor
deriving DecidableEq, Repr

/-- The four instruction formats (R61). -/
inductive Format where
  /-- Opcode alone. -/
  | N
  /-- Opcode and one register field. -/
  | R
  /-- Opcode and two register fields. -/
  | RR
  /-- Opcode, a register field and an immediate byte. -/
  | RI
deriving DecidableEq, Repr

/-- Where the dispatch unit sends a row of the table (R62, R63). -/
inductive Routing where
  /-- To the opcode's own handler. -/
  | handler
  /-- To the ALU, which supports it always (ADD, MUL). -/
  | alu
  /-- To the ALU, which supports it iff `ALU_EXT` (SUB, AND, OR, XOR). -/
  | aluExt
deriving DecidableEq, Repr

/-- A dispatch class of R63; the unit sorts every opcode byte into exactly one. -/
inductive DispatchClass where
  | aluSupported | aluUnsupported | handler | unknown
deriving DecidableEq, Repr

/-- Why bytes decode to no instruction, by name. -/
inductive DecodeError where
  /-- There is no byte at all. -/
  | noOpcode
  /-- The opcode byte is in no row of the table (R66). -/
  | unknownOpcode (b : Byte)
  /-- The row's format needs an operand byte that is not there (R84). -/
  | operandMissing (m : Mnemonic)
deriving DecidableEq, Repr

/-- The default of the parameter `OPCODE`: the byte values of R62, the spec's decision D3 from general knowledge of LS-8
(UNVERIFIED: log 7). They stand here and nowhere else. -/
def defaultOpcodes : OpcodeMap where
  hlt  := 0x01
  ldi  := 0x82
  prn  := 0x47
  push := 0x45
  pop  := 0x46
  call := 0x50
  ret  := 0x11
  cmp  := 0xA7
  jmp  := 0x54
  jeq  := 0x55
  jne  := 0x56
  add  := 0xA0
  mul  := 0xA2
  sub  := 0xA1
  and  := 0xA8
  or   := 0xAA
  xor  := 0xAB

/-- The opcode byte of a mnemonic under a given `OPCODE` (R62). -/
def opcodeOf (T : OpcodeMap) : Mnemonic → Byte
  | .hlt  => T.hlt
  | .ldi  => T.ldi
  | .prn  => T.prn
  | .push => T.push
  | .pop  => T.pop
  | .call => T.call
  | .ret  => T.ret
  | .cmp  => T.cmp
  | .jmp  => T.jmp
  | .jeq  => T.jeq
  | .jne  => T.jne
  | .add  => T.add
  | .mul  => T.mul
  | .sub  => T.sub
  | .and  => T.and
  | .or   => T.or
  | .xor  => T.xor

/-- The format of each row (R61, R62). -/
def formatOf : Mnemonic → Format
  | .hlt | .ret => .N
  | .prn | .push | .pop | .call | .jmp | .jeq | .jne => .R
  | .cmp | .add | .mul | .sub | .and | .or | .xor => .RR
  | .ldi => .RI

/-- Where each row goes (R62, R63); which rows beside ADD and MUL are ALU-routed is D4 (log 8). -/
def routingOf : Mnemonic → Routing
  | .hlt | .ldi | .prn | .push | .pop | .call | .ret | .cmp | .jmp | .jeq | .jne => .handler
  | .add | .mul => .alu
  | .sub | .and | .or | .xor => .aluExt

/-- Every row of the table, in the order of R62. -/
def allMnemonics : List Mnemonic :=
  [.hlt, .ldi, .prn, .push, .pop, .call, .ret, .cmp, .jmp, .jeq, .jne,
   .add, .mul, .sub, .and, .or, .xor]

/-- No byte stands for two mnemonics: what R63's "exactly one class" asks of an `OPCODE` (log 28). -/
abbrev OpcodeMap.Distinct (T : OpcodeMap) : Prop := (allMnemonics.map (opcodeOf T)).Nodup

/-- The width of a format in bytes, the opcode included (R60, R61). -/
def formatWidth : Format → Nat
  | .N => 1
  | .R => 2
  | .RR => 3
  | .RI => 3

/-- The width of an instruction, fixed by its row (R60, R62). -/
def widthOf (m : Mnemonic) : Nat := formatWidth (formatOf m)

/-- The row of an opcode byte, by looking the WHOLE byte up in the table (R63, R65). -/
def mnemonicOf (T : OpcodeMap) (b : Byte) : Option Mnemonic := allMnemonics.find? fun m => opcodeOf T m == b

/-- The dispatch class of an opcode byte, decided from the byte and the configuration alone (R63, R83). -/
def classOf (c : Config) (b : Byte) : DispatchClass :=
  match mnemonicOf c.opcodes b with
  | none => .unknown
  | some m =>
    match routingOf m with
    | .handler => .handler
    | .alu => .aluSupported
    | .aluExt => if c.aluExt then .aluSupported else .aluUnsupported

/-- Format N: no operand byte is taken (R61). -/
def takeNone (i : Instr) (rest : List Byte) : Option (Instr × List Byte) := some (i, rest)

/-- Format R: `op1` (R61). -/
def takeOne (f : Byte → Instr) : List Byte → Option (Instr × List Byte)
  | op1 :: rest => some (f op1, rest)
  | [] => none

/-- Formats RR and RI: `op1`, then `op2` (R61). -/
def takeTwo (f : Byte → Byte → Instr) : List Byte → Option (Instr × List Byte)
  | op1 :: op2 :: rest => some (f op1 op2, rest)
  | [_] => none
  | [] => none

/-- The instruction of a row with the operand bytes that follow its opcode byte (R61). -/
def withOperandBytes : Mnemonic → List Byte → Option (Instr × List Byte)
  | .hlt  => takeNone .hlt
  | .ldi  => takeTwo .ldi
  | .prn  => takeOne .prn
  | .push => takeOne .push
  | .pop  => takeOne .pop
  | .call => takeOne .call
  | .ret  => takeNone .ret
  | .cmp  => takeTwo .cmp
  | .jmp  => takeOne .jmp
  | .jeq  => takeOne .jeq
  | .jne  => takeOne .jne
  | .add  => takeTwo .add
  | .mul  => takeTwo .mul
  | .sub  => takeTwo .sub
  | .and  => takeTwo .and
  | .or   => takeTwo .or
  | .xor  => takeTwo .xor

/-- The decoder under a given `OPCODE`: the first instruction of a byte string and the bytes after it, or the reason
there is none.
Total on any bytes. A register field that names no register is kept as it stands: R85 raises `OutOfRange` for
it, not `UnknownOpcode`. -/
def decode (T : OpcodeMap) : List Byte → Except DecodeError (Instr × List Byte)
  | [] => .error .noOpcode
  | b :: rest =>
    match mnemonicOf T b with
    | none => .error (.unknownOpcode b)
    | some m =>
      match withOperandBytes m rest with
      | some r => .ok r
      | none => .error (.operandMissing m)

/-- The row of an instruction. -/
def Instr.mnemonic : Instr → Mnemonic
  | .hlt => .hlt
  | .ldi _ _ => .ldi
  | .prn _ => .prn
  | .push _ => .push
  | .pop _ => .pop
  | .call _ => .call
  | .ret => .ret
  | .cmp _ _ => .cmp
  | .jmp _ => .jmp
  | .jeq _ => .jeq
  | .jne _ => .jne
  | .add _ _ => .add
  | .mul _ _ => .mul
  | .sub _ _ => .sub
  | .and _ _ => .and
  | .or _ _ => .or
  | .xor _ _ => .xor

/-- The operand bytes of an instruction, at `pc+1` and `pc+2` (R61). -/
def Instr.operandBytes : Instr → List Byte
  | .hlt | .ret => []
  | .prn a | .push a | .pop a | .call a | .jmp a | .jeq a | .jne a => [a]
  | .ldi a imm => [a, imm]
  | .cmp a b | .add a b | .mul a b | .sub a b | .and a b | .or a b | .xor a b => [a, b]

/-- The encoder under a given `OPCODE`: the bytes of an instruction, at increasing addresses (R44, R61). -/
def encode (T : OpcodeMap) (i : Instr) : List Byte := opcodeOf T i.mnemonic :: i.operandBytes

/-- The first three bytes (the longest instruction) of the instruction whose bits the table numbers as `w`: byte
`k` is bits `8k+7` to `8k`, and every bit at or above `nbits` is 0. -/
def tableWordBytes (nbits w : Nat) : List Byte :=
  let v := w % 2 ^ nbits
  [BitVec.ofNat 8 v, BitVec.ofNat 8 (v / 256), BitVec.ofNat 8 (v / 65536)]

/-- The instruction the decoder reads from a word numbered as spec/opcode_table.json numbers it. That table is a copy of
R62's, so the word is read under the default `OPCODE`. -/
def decodeTableWord (nbits w : Nat) : Option Instr :=
  match decode defaultOpcodes (tableWordBytes nbits w) with
  | .ok (i, _) => some i
  | .error _ => none

/-- A mnemonic in capitals, as the opcode table and R68 write it. -/
def Mnemonic.name : Mnemonic → String
  | .hlt => "HLT" | .ldi => "LDI" | .prn => "PRN" | .push => "PUSH" | .pop => "POP"
  | .call => "CALL" | .ret => "RET" | .cmp => "CMP" | .jmp => "JMP" | .jeq => "JEQ"
  | .jne => "JNE" | .add => "ADD" | .mul => "MUL" | .sub => "SUB" | .and => "AND"
  | .or => "OR" | .xor => "XOR"

/-- A register field in the notation of R68. -/
def regName (b : Byte) : String := "R" ++ Nat.repr b.toNat

/-- The spec's assembly notation of an instruction: destination first, a comma between operands, an immediate
in decimal (R68, D23). -/
def Instr.assembly : Instr → String
  | .hlt => Mnemonic.name .hlt
  | .ret => Mnemonic.name .ret
  | .ldi a imm => Mnemonic.name .ldi ++ " " ++ regName a ++ "," ++ Nat.repr imm.toNat
  | .prn a => Mnemonic.name .prn ++ " " ++ regName a
  | .push a => Mnemonic.name .push ++ " " ++ regName a
  | .pop a => Mnemonic.name .pop ++ " " ++ regName a
  | .call a => Mnemonic.name .call ++ " " ++ regName a
  | .jmp a => Mnemonic.name .jmp ++ " " ++ regName a
  | .jeq a => Mnemonic.name .jeq ++ " " ++ regName a
  | .jne a => Mnemonic.name .jne ++ " " ++ regName a
  | .cmp a b => Mnemonic.name .cmp ++ " " ++ regName a ++ "," ++ regName b
  | .add a b => Mnemonic.name .add ++ " " ++ regName a ++ "," ++ regName b
  | .mul a b => Mnemonic.name .mul ++ " " ++ regName a ++ "," ++ regName b
  | .sub a b => Mnemonic.name .sub ++ " " ++ regName a ++ "," ++ regName b
  | .and a b => Mnemonic.name .and ++ " " ++ regName a ++ "," ++ regName b
  | .or a b => Mnemonic.name .or ++ " " ++ regName a ++ "," ++ regName b
  | .xor a b => Mnemonic.name .xor ++ " " ++ regName a ++ "," ++ regName b

end Sys2Proof
end

