-- ==== Sys2Proof/Machine/State.lean ====
section
/-! DEFINITION. The state vector of R20 as plain data, the reasons a step stops, the launch parameters (R191) and
the state at reset. -/

namespace Sys2Proof.Machine

open Sys2Proof

/-- The failure kinds (R170). -/
inductive FailureKind where
  /-- The opcode byte is of class unknown. -/
  | unknownOpcode
  /-- The opcode byte is ALU-routed, neither ADD nor MUL, and `ALU_EXT` is false. -/
  | unsupportedOperation
  /-- A register index, an address, a next pc or SP is out of its range. -/
  | outOfRange
deriving DecidableEq, Repr

/-- The run state: Running, Halted or Failed(kind, pc, opcode) (R28, R80, R171). -/
inductive RunState where
  | running
  | halted
  /-- The failure record: its kind, the address of the failing instruction and its opcode byte (R171). -/
  | failed (kind : FailureKind) (fpc fop : Byte)
deriving DecidableEq, Repr

/-- The flags register `FL` (R24): three bits; after a CMP exactly one is set, at launch any value. -/
structure Flags where
  /-- Equal (bit 0). -/
  E : Bool
  /-- Greater (bit 1). -/
  G : Bool
  /-- Less (bit 2). -/
  L : Bool
deriving DecidableEq, Repr

/-- The memory's listed cells: addresses strictly rising, below 256, and no cell equal to what an unlisted
address reads as (`Memory.wf` in Ops.lean says so). It holds all 256 cells of R29, since an unlisted one reads as
`Memory.unlisted`. -/
abbrev Memory := List Host.Cell

/-- The complete state of the block (R20), and the configuration it runs under. -/
structure State where
  /-- 256 cells of 8 bits (R29). -/
  mem : Memory
  /-- The register file; `x[7]` is SP (R21, R22). -/
  x   : Vector Byte 8
  /-- The flags register (R24). -/
  fl  : Flags
  /-- The program counter (R26). -/
  pc  : Byte
  /-- The run state with its failure record (R28). -/
  run : RunState
  /-- The output channel, oldest value first (R27). -/
  out : List Byte
  /-- `ALU_EXT` and `OPCODE`: not state of the block but configuration, fixed for a run (R20); no step changes it.
  Log 7, log 8. -/
  cfg : Config
deriving DecidableEq, Repr

/-- Why `step` has no next state. No instruction's meaning answers a fault. -/
inductive Fault where
  /-- Raised by `step` alone, in the Halted state: the block takes no step there (R80, R90). Safe: no claim about a
  next state holds of it. Log 1. -/
  | noStepHalted
  /-- Raised by `step` alone, in a Failed state: the block takes no step there (R80, R90). Safe: no claim about a
  next state holds of it. Log 1. -/
  | noStepFailed
deriving DecidableEq, Repr

/-- Why an instruction has no meaning. No instruction of this model is refused. -/
inductive Refusal where
  /-- Raised by an arm of `exec` without a meaning, by the mnemonic's name; no arm raises it. Safe. -/
  | notModelled (mnemonic : String)
deriving DecidableEq, Repr

/-- What one instruction answers. -/
abbrev Result := Host.Outcome State Fault Refusal

/-- The launch parameters (R6, R191). -/
structure LaunchParams where
  /-- `initImage`: the 256 memory cells at start. -/
  initImage : Vector Byte 256
  /-- `initRegs`: registers 0 to 6 at start. -/
  initRegs  : Vector Byte 7
  /-- `initFL`: the flags register at start. -/
  initFL    : Flags
  /-- `ALU_EXT` and `OPCODE`. -/
  cfg       : Config
deriving DecidableEq, Repr

/-- The machine right after reset: the launch state (R33, R191) with `pc` = 0, `x[7]` = 0xF4, Running and an empty
output channel as the spec says. DESIGN CHOICE, the spec gives no value: R0 to R6 are 0 (log 3), FL is 000 (log 4),
no memory cell is listed (log 5). `ALU_EXT` and `OPCODE` are at the spec's defaults, false and R62
(log 7, log 8). -/
def State.reset : State where
  mem := []
  x   := #v[0, 0, 0, 0, 0, 0, 0, spInit]
  fl  := ⟨false, false, false⟩
  pc  := pcInit
  run := .running
  out := []
  cfg := ⟨false, defaultOpcodes⟩

end Sys2Proof.Machine
end

