-- ==== Sys2Proof/Machine/Ops.lean ====
section
/-! DEFINITION. The named operations over memory and registers, the raising of a failure (the block's only trap) as one
shared operation, and the launch. -/

namespace Sys2Proof.Machine

open Sys2Proof

/-! ### Memory (R29, R40, R41) -/

/-- What an unlisted address reads as. DESIGN CHOICE: the spec leaves `initImage` open (log 5). -/
def Memory.unlisted : Byte := 0

/-- The byte in cell `a` (R41). -/
def Memory.read : Memory → Nat → Byte
  | [], _ => Memory.unlisted
  | (k, v) :: m, a => if k = a then v else Memory.read m a

/-- Cell `a` is listed no more. -/
def Memory.erase : Memory → Nat → Memory
  | [], _ => []
  | (k, v) :: m, a => if k = a then Memory.erase m a else (k, v) :: Memory.erase m a

/-- Cell `a` is listed with `v`, at its place among rising addresses. -/
def Memory.insert : Memory → Nat → Byte → Memory
  | [], a, v => [(a, v)]
  | (k, w) :: m, a, v =>
    if a < k then (a, v) :: (k, w) :: m
    else if a = k then (k, v) :: m
    else (k, w) :: Memory.insert m a v

/-- Set cell `a` to `v`, keeping the canonical form (R41). -/
def Memory.write (m : Memory) (a : Nat) (v : Byte) : Memory :=
  if v = Memory.unlisted then Memory.erase m a else Memory.insert m a v

/-- The canonical form: addresses strictly rising, inside the 256 cells, no cell equal to an unlisted one. -/
abbrev Memory.wf (m : Memory) : Prop :=
  m.Pairwise (fun c d => c.1 < d.1) ∧ ∀ c ∈ m, c.1 ≤ lastAddress ∧ c.2 ≠ Memory.unlisted

/-- The canonical memory that holds `bytes` from address `k` upward. -/
def Memory.fromBytes : Nat → List Byte → Memory
  | _, [] => []
  | k, b :: bs => if b = Memory.unlisted then Memory.fromBytes (k + 1) bs else (k, b) :: Memory.fromBytes (k + 1) bs

/-- `n` bytes from address `a` upward, less those above address 255, which do not exist (R46, R84). -/
def Memory.bytesAt (m : Memory) : Nat → Nat → List Byte
  | _, 0 => []
  | a, n + 1 => if a ≤ lastAddress then Memory.read m a :: Memory.bytesAt m (a + 1) n else []

/-- Store bytes from address `a` upward, less those above address 255, which do not exist. -/
def Memory.storeBytes (m : Memory) : Nat → List Byte → Memory
  | _, [] => m
  | a, b :: bs => if a ≤ lastAddress then Memory.storeBytes (Memory.write m a b) (a + 1) bs else m

/-- `MemRead(a, 1)` (R9, R41); an address held in a byte is always in range (R46). -/
def State.memRead (s : State) (a : Byte) : Byte := Memory.read s.mem a.toNat

/-- `MemWrite(a, 1, v)` (R9, R41). -/
def State.memWrite (s : State) (a v : Byte) : State := { s with mem := Memory.write s.mem a.toNat v }

/-! ### Registers, pc, flags, run state, output (R21 to R28) -/

/-- `x[i]` (R9, R21). No register is hard-wired. -/
def State.reg (s : State) (i : RegIx) : Byte := s.x[i]

/-- `x[i] <- v` (R9, R21). -/
def State.setReg (s : State) (i : RegIx) (v : Byte) : State := { s with x := s.x.set i.val v i.isLt }

/-- `SP` is the storage of `x[7]` (R22). -/
def State.sp (s : State) : Byte := s.reg spIndex

/-- `pc <- t` (R9, R26). -/
def State.setPc (s : State) (t : Byte) : State := { s with pc := t }

/-- `FL <- f` (R24). -/
def State.setFlags (s : State) (f : Flags) : State := { s with fl := f }

/-- `emit(v)`: append to the output channel (R9, R27). -/
def State.emit (s : State) (v : Byte) : State := { s with out := s.out ++ [v] }

/-- `halt` (R9, R89). -/
def State.halt (s : State) : State := { s with run := .halted }

/-- The opcode byte of a mnemonic under the `OPCODE` this machine runs with (R6, R62). -/
def State.opcode (s : State) (m : Mnemonic) : Byte := opcodeOf s.cfg.opcodes m

/-! ### Failures (R170 to R173): the block's only trap; there is no return from one (R176) -/

/-- The numeric code of a failure kind (R170, D22). -/
def FailureKind.code : FailureKind → Nat
  | .unknownOpcode => 1
  | .unsupportedOperation => 2
  | .outOfRange => 3

/-- The state after a failure: the record is `(kind, pc, opcode)` and nothing else changes (R171, R172). -/
def State.withFailure (s : State) (k : FailureKind) (opcode : Byte) : State :=
  { s with run := .failed k s.pc opcode }

/-- `raise K`: taking a failure, the one shared operation (R9, R171, R172). It is a next state (log 2). -/
def raise (k : FailureKind) (opcode : Byte) (s : State) : Result := .next (s.withFailure k opcode)

/-- `require c else raise OutOfRange`, in the instruction `m` (R9, R46). -/
def requireRange (m : Mnemonic) (s : State) (c : Prop) [Decidable c] (k : Result) : Result :=
  if c then k else raise .outOfRange (s.opcode m) s

/-! ### Launch (R190, R191) -/

/-- The launch state for given parameters (R191). -/
def State.launch (p : LaunchParams) : State where
  mem := Memory.fromBytes 0 p.initImage.toList
  x   := p.initRegs.push spInit
  fl  := p.initFL
  pc  := pcInit
  run := .running
  out := []
  cfg := p.cfg

end Sys2Proof.Machine
end

