-- ==== Sys2Proof/Machine/Operands.lean ====
section
/-! DEFINITION. Fetching an instruction (R82 to R84), the operand forms of R61 with the checks every instruction makes
(R84, R85), the sequential next pc (R87), and the stack slot addresses (R130). -/

namespace Sys2Proof.Machine

open Sys2Proof

/-! ### Register fields (R64, R85) -/

/-- The register a whole operand byte names; 8 to 255 name none (R64). -/
def regIndex? (b : Byte) : Option RegIx := if h : b.toNat < 8 then some ⟨b.toNat, h⟩ else none

/-- The operand byte that names register `i` (R64). -/
def regByte (i : RegIx) : Byte := BitVec.ofNat 8 i.val

/-- `require a <= 7 else raise OutOfRange`, then go on with the register `a` names (R85). -/
def withReg (m : Mnemonic) (a : Byte) (s : State) (k : RegIx → Result) : Result :=
  match regIndex? a with
  | some i => k i
  | none => raise .outOfRange (s.opcode m) s

/-! ### The operand forms (R61): operand addresses first (R84), then register indices (R85), in the order of R173 -/

/-- Format R: `op1` at `pc+1` is a register field. -/
def withR (m : Mnemonic) (a : Byte) (s : State) (k : RegIx → Result) : Result :=
  requireRange m s (s.pc.toNat + 1 ≤ lastAddress) (withReg m a s k)

/-- Format RR: `op1` at `pc+1` and `op2` at `pc+2` are register fields. -/
def withRR (m : Mnemonic) (a b : Byte) (s : State) (k : RegIx → RegIx → Result) : Result :=
  requireRange m s (s.pc.toNat + 1 ≤ lastAddress)
    (requireRange m s (s.pc.toNat + 2 ≤ lastAddress)
      (withReg m a s fun i => withReg m b s fun j => k i j))

/-- Format RI: `op1` at `pc+1` is a register field, `op2` at `pc+2` is the immediate, which is not checked. -/
def withRI (m : Mnemonic) (a : Byte) (s : State) (k : RegIx → Result) : Result :=
  requireRange m s (s.pc.toNat + 1 ≤ lastAddress)
    (requireRange m s (s.pc.toNat + 2 ≤ lastAddress) (withReg m a s k))

/-! ### Next pc and stack addresses -/

/-- `pc + w` when it is an address; the pc never wraps (R26, R87). -/
def nextPc? (s : State) (w : Nat) : Option Byte :=
  if s.pc.toNat + w ≤ lastAddress then some (BitVec.ofNat 8 (s.pc.toNat + w)) else none

/-- `newpc = pc + w` for the instruction's own width, or `OutOfRange` (R87). -/
def sequential (m : Mnemonic) (s : State) (k : Byte → Result) : Result :=
  match nextPc? s (widthOf m) with
  | some npc => k npc
  | none => raise .outOfRange (s.opcode m) s

/-- The address a push writes, `SP - 1`, when it is an address (R130, R136). -/
def pushSlot? (s : State) : Option Byte :=
  if 1 ≤ s.sp.toNat then some (BitVec.ofNat 8 (s.sp.toNat - 1)) else none

/-- `SP + 1` when it is an address (R130, R136). -/
def popSp? (s : State) : Option Byte :=
  if s.sp.toNat + 1 ≤ lastAddress then some (BitVec.ofNat 8 (s.sp.toNat + 1)) else none

/-! ### Fetch and decode (R82 to R84) -/

/-- How many bytes the opcode byte `b` says its instruction has; a byte of class unknown has no operand bytes to
fetch (R65). -/
def fetchWidth (T : OpcodeMap) (b : Byte) : Nat :=
  match mnemonicOf T b with
  | some m => widthOf m
  | none => 1

/-- The bytes of the instruction at `pc` that exist: the opcode byte, then the operand bytes its width needs, none
above address 255 (R60, R82, R84). -/
def instrBytes (s : State) : List Byte :=
  Memory.bytesAt s.mem s.pc.toNat (fetchWidth s.cfg.opcodes (s.memRead s.pc))

/-- Fetch, classify and assemble the instruction at `pc`, or the failure this raises: the opcode class first, from the
opcode byte alone (R83), then the operand bytes (R84). -/
def fetchDecode (s : State) : Except FailureKind Instr :=
  match classOf s.cfg (s.memRead s.pc) with
  | .unknown => .error .unknownOpcode
  | .aluUnsupported => .error .unsupportedOperation
  | .aluSupported | .handler =>
    match decode s.cfg.opcodes (instrBytes s) with
    | .ok (i, _) => .ok i
    | .error _ => .error .outOfRange

end Sys2Proof.Machine
end

