-- ==== Sys2Proof/Machine/Alu.lean ====
section
/-! DEFINITION. The ALU instructions (41_alu.md): ADD and MUL; SUB, AND, OR and XOR under `ALU_EXT`. None writes FL (R108). -/

namespace Sys2Proof.Machine

open Sys2Proof

/-- The exact sum, reduced modulo 256 (R101, R108). -/
def aluAdd (u v : Byte) : Byte := BitVec.ofNat 8 ((u.toNat + v.toNat) % 256)

/-- The low 8 bits of the exact unsigned product (R102, R108). -/
def aluMul (u v : Byte) : Byte := BitVec.ofNat 8 ((u.toNat * v.toNat) % 256)

/-- The exact difference, reduced modulo 256 (R104, R108). -/
def aluSub (u v : Byte) : Byte := BitVec.ofNat 8 ((256 + u.toNat - v.toNat) % 256)

/-- Bitwise AND (R105). -/
def aluAnd (u v : Byte) : Byte := u &&& v

/-- Bitwise OR (R106). -/
def aluOr (u v : Byte) : Byte := u ||| v

/-- Bitwise exclusive OR (R107). -/
def aluXor (u v : Byte) : Byte := u ^^^ v

/-- The shape of every ALU instruction: both registers are read, then the result goes to the first, and the pc
advances by 3 (R100). -/
def aluInstr (m : Mnemonic) (f : Byte → Byte → Byte) (a b : Byte) (s : State) : Result :=
  withRR m a b s fun i j =>
    sequential m s fun npc => .next ((s.setReg i (f (s.reg i) (s.reg j))).setPc npc)

/-- The shape of the optional ALU instructions: `UnsupportedOperation` unless `ALU_EXT`, before any other check
(R103, R173). -/
def aluExtInstr (m : Mnemonic) (f : Byte → Byte → Byte) (a b : Byte) (s : State) : Result :=
  if s.cfg.aluExt then aluInstr m f a b s else raise .unsupportedOperation (s.opcode m) s

/-- ADD (R101). -/
def execAdd (a b : Byte) (s : State) : Result := aluInstr .add aluAdd a b s

/-- MUL (R102). -/
def execMul (a b : Byte) (s : State) : Result := aluInstr .mul aluMul a b s

/-- SUB (R103, R104; meaning UNVERIFIED, the spec's K4: log 9). -/
def execSub (a b : Byte) (s : State) : Result := aluExtInstr .sub aluSub a b s

/-- AND (R103, R105; meaning UNVERIFIED, the spec's K4: log 9). -/
def execAnd (a b : Byte) (s : State) : Result := aluExtInstr .and aluAnd a b s

/-- OR (R103, R106; meaning UNVERIFIED, the spec's K4: log 9). -/
def execOr (a b : Byte) (s : State) : Result := aluExtInstr .or aluOr a b s

/-- XOR (R103, R107; meaning UNVERIFIED, the spec's K4: log 9). -/
def execXor (a b : Byte) (s : State) : Result := aluExtInstr .xor aluXor a b s

end Sys2Proof.Machine
end

