-- ==== Sys2Proof/Machine/Flags.lean ====
section
/-! DEFINITION. The flags register: its layout (R24) and the one flag computation of the block, CMP's (R150). -/

namespace Sys2Proof.Machine

open Sys2Proof

/-- FL as the 3-bit value `L ‖ G ‖ E` (R24, D15; no instruction reads FL as a number). -/
def Flags.toBits (f : Flags) : BitVec 3 :=
  BitVec.ofNat 3 (f.L.toNat * 4 + f.G.toNat * 2 + f.E.toNat)

/-- FL from the 3-bit value `L ‖ G ‖ E` (R24). -/
def Flags.ofBits (v : BitVec 3) : Flags := ⟨v.getLsbD 0, v.getLsbD 1, v.getLsbD 2⟩

/-- The flags of a compare, unsigned; the prior value plays no part (R150). -/
def compareFlags (u v : Byte) : Flags :=
  if u.toNat = v.toNat then ⟨true, false, false⟩
  else if u.toNat > v.toNat then ⟨false, true, false⟩
  else ⟨false, false, true⟩

end Sys2Proof.Machine
end

