-- ==== Sys2Proof/Machine/CompareBranch.lean ====
section
/-! DEFINITION. Compare and branch (44_compare_branch.md). -/

namespace Sys2Proof.Machine

open Sys2Proof

/-- CMP: writes all three flags and nothing else but the pc (R150). -/
def execCmp (a b : Byte) (s : State) : Result :=
  withRR .cmp a b s fun i j =>
    sequential .cmp s fun npc => .next ((s.setFlags (compareFlags (s.reg i) (s.reg j))).setPc npc)

/-- JMP: any target, no next-pc check (R151). -/
def execJmp (a : Byte) (s : State) : Result :=
  withR .jmp a s fun i => .next (s.setPc (s.reg i))

/-- A conditional jump: the register index is checked on either path, the next pc on the fall-through only
(R85, R152, R153). -/
def branchIf (m : Mnemonic) (taken : Bool) (a : Byte) (s : State) : Result :=
  withR m a s fun i =>
    if taken then .next (s.setPc (s.reg i)) else sequential m s fun npc => .next (s.setPc npc)

/-- JEQ: reads `FL.E` only (R152). -/
def execJeq (a : Byte) (s : State) : Result := branchIf .jeq s.fl.E a s

/-- JNE: reads `FL.E` only (R153, C5). -/
def execJne (a : Byte) (s : State) : Result := branchIf .jne (!s.fl.E) a s

end Sys2Proof.Machine
end

