-- ==== Sys2Proof/Machine/Halt.lean ====
section
/-! DEFINITION. HLT (40_execution_loop.md). -/

namespace Sys2Proof.Machine

open Sys2Proof

/-- HLT: `run <- Halted`, the pc stays (R89; the pc's value is the spec's choice D14, log 16). It cannot fail. -/
def execHlt (s : State) : Result := .next s.halt

end Sys2Proof.Machine
end

