-- ==== Sys2Proof/Machine/LoadOutput.lean ====
section
/-! DEFINITION. Load-immediate and output (42_load_output.md). -/

namespace Sys2Proof.Machine

open Sys2Proof

/-- LDI (R120). -/
def execLdi (a imm : Byte) (s : State) : Result :=
  withRI .ldi a s fun i =>
    sequential .ldi s fun npc => .next ((s.setReg i imm).setPc npc)

/-- PRN: the 8-bit value goes to the output channel; the decimal line is the host's (R121, R122). -/
def execPrn (a : Byte) (s : State) : Result :=
  withR .prn a s fun i =>
    sequential .prn s fun npc => .next ((s.emit (s.reg i)).setPc npc)

end Sys2Proof.Machine
end

