-- ==== Sys2Proof/Machine/Stack.lean ====
section
/-! DEFINITION. The stack instructions (43_stack.md). The order of the sub-steps is R131's (log 19): it shows when the
operand register is SP itself. -/

namespace Sys2Proof.Machine

open Sys2Proof

/-- `SP <- SP - 1` with the slot's address, or `OutOfRange` at SP = 0 (R130, R136). -/
def withPushSlot (m : Mnemonic) (s : State) (k : Byte → State → Result) : Result :=
  match pushSlot? s with
  | some slot => k slot (s.setReg spIndex slot)
  | none => raise .outOfRange (s.opcode m) s

/-- PUSH: the operand register is read AFTER the decrement, so PUSH R7 stores the decremented SP (R131, R132). -/
def execPush (a : Byte) (s : State) : Result :=
  withR .push a s fun i =>
    sequential .push s fun npc =>
      withPushSlot .push s fun slot t => .next ((t.memWrite slot (t.reg i)).setPc npc)

/-- POP: the popped byte is written BEFORE SP is incremented, so POP R7 leaves the byte plus 1 (R131, R133). -/
def execPop (a : Byte) (s : State) : Result :=
  withR .pop a s fun i =>
    sequential .pop s fun npc =>
      let t := s.setReg i (s.memRead s.sp)
      match popSp? t with
      | some sp => .next ((t.setReg spIndex sp).setPc npc)
      | none => raise .outOfRange (s.opcode .pop) s

/-- CALL: pushes `pc + 2`, then reads its target, so CALL R7 jumps to the decremented SP (R131, R134). The return
address is the sequential next pc and must be an address (D9). -/
def execCall (a : Byte) (s : State) : Result :=
  withR .call a s fun i =>
    sequential .call s fun ret =>
      withPushSlot .call s fun slot t => .next ((t.memWrite slot ret).setPc (t.reg i))

/-- RET: no operand bytes and no next-pc check (R135). -/
def execRet (s : State) : Result :=
  match popSp? s with
  | some sp => .next ((s.setReg spIndex sp).setPc (s.memRead s.sp))
  | none => raise .outOfRange (s.opcode .ret) s

end Sys2Proof.Machine
end

