-- ==== Sys2Proof/Machine/Step.lean ====
section
/-! DEFINITION. One step of the block (R80 to R87), and the placing of a table word where the next fetch reads it. -/

namespace Sys2Proof.Machine

open Sys2Proof

/-- One step: in Running, one whole instruction (R81, R82), whose fetch or decode may raise a failure (R83, R84); in
Halted and Failed no step (R90), answered as a fault of that name (log 1). -/
def step (s : State) : Host.Outcome State Fault Refusal :=
  match s.run with
  | .halted => .fault .noStepHalted
  | .failed _ _ _ => .fault .noStepFailed
  | .running =>
    match fetchDecode s with
    | .ok i => exec i s
    | .error k => raise k (s.memRead s.pc) s

/-- `s` with the instruction whose bits the opcode table numbers as `w` stored at `pc`, where `step` fetches (log 20).
A byte that would lie above address 255 does not exist and is not stored. Nothing but memory changes. -/
def State.withFetchWord (s : State) (nbits w : Nat) : State :=
  { s with mem := Memory.storeBytes s.mem s.pc.toNat (tableWordBytes nbits w) }

end Sys2Proof.Machine
end

