-- ==== Sys2Proof/Safety.lean ====
section
/-! DEFINITION. What claims are stated in: the end and the result of a run, a sequence of instructions, and the
invariant of the machine. -/

namespace Sys2Proof.Machine

open Sys2Proof

/-! ### Runs (R80, R91, R197) -/

/-- The run has ended: `run` is Halted or Failed (R91). -/
def State.ended (s : State) : Bool :=
  match s.run with
  | .running => false
  | .halted => true
  | .failed _ _ _ => true

/-- A run under a step bound: the state it ended in, or nothing when it has not ended yet; running out of fuel is
never an end (R197). -/
def runFuel : Nat → State → Option State
  | 0, s => if s.ended then some s else none
  | n + 1, s =>
    if s.ended then some s
    else
      match step s with
      | .next t => runFuel n t
      | .fault _ => none
      | .refused _ => none

/-- The state after exactly `n` steps, when every one of them answers a next state. -/
def stepsFrom : Nat → State → Option State
  | 0, s => some s
  | n + 1, s =>
    match step s with
    | .next t => stepsFrom n t
    | .fault _ => none
    | .refused _ => none

/-- What a run produces: the final `(mem, x, FL, out, run)`; `pc` is no part of it (R91). -/
def State.produced (s : State) : Memory × Vector Byte 8 × Flags × List Byte × RunState :=
  (s.mem, s.x, s.fl, s.out, s.run)

/-- Instructions carried out one after the other, as long as none fails or halts: the `exec` part of a run of
steps that fetch them. -/
def execSeq : List Instr → State → Result
  | [], s => .next s
  | i :: is, s =>
    match exec i s with
    | .next t =>
      match t.run with
      | .running => execSeq is t
      | .halted => .next t
      | .failed _ _ _ => .next t
    | .fault f => .fault f
    | .refused r => .refused r

/-! ### The invariant -/

/-- A failure record tells the truth about the state that holds it: the pc and the opcode byte are those of the
instruction the pc still points to, and the kind is the one its dispatch class gives (R170, R171, R172, R173). -/
def State.recordAgrees (s : State) : Prop :=
  match s.run with
  | .running => True
  | .halted => True
  | .failed k fpc fop =>
    fpc = s.pc ∧ fop = s.memRead s.pc ∧
      (k = .unknownOpcode ↔ classOf s.cfg fop = .unknown) ∧
      (k = .unsupportedOperation ↔ classOf s.cfg fop = .aluUnsupported)

/-- The machine's invariant: memory in its canonical form, and a truthful failure record. -/
def State.Inv (s : State) : Prop := Memory.wf s.mem ∧ s.recordAgrees

end Sys2Proof.Machine
end

