-- ==== Sys2Proof/Certificates/Slice0/Obligations.lean ====
section
/-! DEFINITION. The statements for the provers. `regByte i` is the operand byte that names register `i`; every other
operand byte is above 7 (R64), so `∀ i, … regByte i …` together with `7 < a.toNat` is every form of a register field.
Where a clause follows a decision of the spec's own (D<n> of 92_eei_decisions.md) or a choice of this model (log <n>),
the docstring says so. `s.opcode m` is the byte of the mnemonic `m` in the `OPCODE` the state runs under, a parameter (R6, U8); the bytes written
out in encodings are its default, R62 (D3, log 7).
The `outOfRange` clauses are the checks each rule lists under its failures: R84, R85, R87 (D7 to D9, logs 12 to 14). -/

open Sys2Proof Sys2Proof.Machine

/-! ### Launch, reset, memory -/

/-- R33, R6: every piece of state at launch, and the configuration, for all launch parameters (D11 to D13; that `out` starts empty is the spec's own
inference there; the literal 0xF4 is unaudited, log 6). -/
def Obligations.LaunchStateOfEveryPiece : Prop :=
  ∀ p : LaunchParams,
    (State.launch p).pc = 0 ∧
    (State.launch p).run = .running ∧
    (State.launch p).x[7] = 0xF4 ∧
    (∀ i : Fin 7, (State.launch p).x[i.val] = p.initRegs[i]) ∧
    (State.launch p).fl = p.initFL ∧
    (∀ a : Byte, (State.launch p).memRead a = p.initImage[a.toNat]) ∧
    (State.launch p).out = [] ∧
    (State.launch p).cfg = p.cfg

/-- The model's reset is the launch state at the values the model names: DESIGN CHOICE, log 3 (R0 to R6), log 4 (FL),
log 5 (memory); `ALU_EXT` and `OPCODE` are at the spec's defaults, false and R62 (log 8, log 7). -/
def Obligations.ResetIsLaunchAtNamedValues : Prop :=
  State.reset = State.launch
    { initImage := Vector.replicate 256 0, initRegs := Vector.replicate 7 0,
      initFL := ⟨false, false, false⟩, cfg := ⟨false, defaultOpcodes⟩ }

/-- R41: a cell reads as the byte last written to it, or as the image where nothing wrote it, whatever was written
and in whatever order; a write changes memory and nothing else. -/
def Obligations.MemoryReadsLastWriteOrImage : Prop :=
  ∀ (p : LaunchParams) (writes : List (Byte × Byte)) (a : Byte),
    let s := writes.foldl (fun s w => s.memWrite w.1 w.2) (State.launch p)
    s.memRead a = ((writes.reverse.find? fun w => w.1 == a).map Prod.snd).getD p.initImage[a.toNat] ∧
    s = { State.launch p with mem := s.mem }

/-- The canonical form (a convention of this model's, log 5) makes equal memories equal data: two canonical memories
that read alike at every address are the same list. -/
def Obligations.CanonicalMemoriesReadingAlikeAreEqual : Prop :=
  ∀ m n : Memory, Memory.wf m → Memory.wf n →
    (∀ a : Byte, Memory.read m a.toNat = Memory.read n a.toNat) → m = n

/-! ### Encoding -/

/-- Under every `OPCODE` that gives no byte to two mnemonics (log 28), decoding an encoded instruction gives it back, with
every operand byte at every value, and leaves the bytes after it alone; ill-formed operand bytes too survive, since R85 and not the decoder rejects them. -/
def Obligations.DecodeOfEncodeIsTheInstruction : Prop :=
  ∀ T : OpcodeMap, T.Distinct → ∀ (i : Instr) (rest : List Byte), decode T (encode T i ++ rest) = .ok (i, rest)

/-- Under every `OPCODE`, whatever decodes is the encoding of what it decodes to: no bit is dropped. -/
def Obligations.EncodeOfDecodeIsTheBytes : Prop :=
  ∀ (T : OpcodeMap) (bytes rest : List Byte) (i : Instr), decode T bytes = .ok (i, rest) → encode T i ++ rest = bytes

/-- A few words written out from R61 and R62 decode to the instructions they stand for (byte values: D3, log 7). -/
def Obligations.WordsOfTheOpcodeMapDecode : Prop :=
  decode defaultOpcodes [0b00000001] = .ok (.hlt, []) ∧
  decode defaultOpcodes [0b10000010, 0b00000000, 0b00001000] = .ok (.ldi 0 8, []) ∧
  decode defaultOpcodes [0b01000111, 0b00000111] = .ok (.prn 7, []) ∧
  decode defaultOpcodes [0b01000101, 0b00000010] = .ok (.push 2, []) ∧
  decode defaultOpcodes [0b10100111, 0b00000000, 0b00000001] = .ok (.cmp 0 1, []) ∧
  decode defaultOpcodes [0b01010101, 0b00000010] = .ok (.jeq 2, []) ∧
  decode defaultOpcodes [0b10100000, 0b00000000, 0b00000001] = .ok (.add 0 1, []) ∧
  decode defaultOpcodes [0b10101011, 0b00000011, 0b00000100] = .ok (.xor 3 4, []) ∧
  decode defaultOpcodes [0b00000000] = .error (.unknownOpcode 0) ∧
  decode defaultOpcodes [0b10000011, 0, 1] = .error (.unknownOpcode 0x83)

/-- The dispatch classes of R63 (set of ALU-routed rows: D4, log 8). Under every `OPCODE` a byte is unknown when it is no
mnemonic's, and, where no byte is two mnemonics' (log 28), a mnemonic's byte has the class of its routing; then the bytes
of each class under the default `OPCODE` (D3, log 7), and the consistency check of R65: bits [7:6] of a default byte are
its width less 1, and bit 5 marks the ALU-routed rows and CMP. -/
def Obligations.DispatchClassesAndWidths : Prop :=
  (∀ (c : Config) (b : Byte), classOf c b = .unknown ↔ ∀ m, opcodeOf c.opcodes m ≠ b) ∧
  (∀ (c : Config) (m : Mnemonic), c.opcodes.Distinct →
    classOf c (opcodeOf c.opcodes m) =
      match routingOf m with
      | .handler => .handler
      | .alu => .aluSupported
      | .aluExt => if c.aluExt then .aluSupported else .aluUnsupported) ∧
  (∀ (e : Bool) (b : Byte), classOf ⟨e, defaultOpcodes⟩ b = .unknown ↔
    b ∉ ([0x01, 0x82, 0x47, 0x45, 0x46, 0x50, 0x11, 0xA7, 0x54, 0x55, 0x56, 0xA0, 0xA2, 0xA1, 0xA8, 0xAA, 0xAB] :
      List Byte)) ∧
  (∀ b : Byte, classOf ⟨false, defaultOpcodes⟩ b = .aluUnsupported ↔ b ∈ ([0xA1, 0xA8, 0xAA, 0xAB] : List Byte)) ∧
  (∀ b : Byte, classOf ⟨true, defaultOpcodes⟩ b ≠ .aluUnsupported) ∧
  (∀ b : Byte, classOf ⟨false, defaultOpcodes⟩ b = .aluSupported ↔ b ∈ ([0xA0, 0xA2] : List Byte)) ∧
  (∀ b : Byte, classOf ⟨true, defaultOpcodes⟩ b = .aluSupported ↔
    b ∈ ([0xA0, 0xA2, 0xA1, 0xA8, 0xAA, 0xAB] : List Byte)) ∧
  (∀ m : Mnemonic, widthOf m = 1 + (opcodeOf defaultOpcodes m).toNat / 64) ∧
  (∀ m : Mnemonic, (opcodeOf defaultOpcodes m).getLsbD 5 = true ↔ routingOf m ≠ .handler ∨ m = .cmp)

/-! ### ALU instructions -/

/-- R101, whole. -/
def Obligations.AddResultAndFailures : Prop :=
  ∀ s : State,
    (∀ i j : RegIx, s.pc.toNat + 3 ≤ 255 →
      exec (.add (regByte i) (regByte j)) s =
        .next { s with x := s.x.set i.val (BitVec.ofNat 8 ((s.x[i].toNat + s.x[j].toNat) % 256)) i.isLt, pc := s.pc + 3 }) ∧
    (∀ a b : Byte, 255 < s.pc.toNat + 3 ∨ 7 < a.toNat ∨ 7 < b.toNat →
      exec (.add a b) s = .next { s with run := .failed .outOfRange s.pc (s.opcode .add) }) ∧
    (∀ a b : Byte, encode defaultOpcodes (.add a b) = [0xA0, a, b])

/-- R102, whole (that MUL writes no flag is the spec's own inference there). -/
def Obligations.MulResultAndFailures : Prop :=
  ∀ s : State,
    (∀ i j : RegIx, s.pc.toNat + 3 ≤ 255 →
      exec (.mul (regByte i) (regByte j)) s =
        .next { s with x := s.x.set i.val (BitVec.ofNat 8 ((s.x[i].toNat * s.x[j].toNat) % 256)) i.isLt, pc := s.pc + 3 }) ∧
    (∀ a b : Byte, 255 < s.pc.toNat + 3 ∨ 7 < a.toNat ∨ 7 < b.toNat →
      exec (.mul a b) s = .next { s with run := .failed .outOfRange s.pc (s.opcode .mul) }) ∧
    (∀ a b : Byte, encode defaultOpcodes (.mul a b) = [0xA2, a, b])

/-- R104 and R103 for SUB: its effect under `ALU_EXT` (general knowledge, K4, log 9), `UnsupportedOperation` without it
whatever the operands and the pc (D4, D5). -/
def Obligations.SubResultAndFailures : Prop :=
  ∀ s : State,
    (s.cfg.aluExt = true → ∀ i j : RegIx, s.pc.toNat + 3 ≤ 255 →
      exec (.sub (regByte i) (regByte j)) s =
        .next { s with x := s.x.set i.val (BitVec.ofNat 8 ((256 + s.x[i].toNat - s.x[j].toNat) % 256)) i.isLt, pc := s.pc + 3 }) ∧
    (s.cfg.aluExt = true → ∀ a b : Byte, 255 < s.pc.toNat + 3 ∨ 7 < a.toNat ∨ 7 < b.toNat →
      exec (.sub a b) s = .next { s with run := .failed .outOfRange s.pc (s.opcode .sub) }) ∧
    (s.cfg.aluExt = false → ∀ a b : Byte,
      exec (.sub a b) s = .next { s with run := .failed .unsupportedOperation s.pc (s.opcode .sub) }) ∧
    (∀ a b : Byte, encode defaultOpcodes (.sub a b) = [0xA1, a, b])

/-- R105 and R103 for AND (general knowledge, K4, log 9; D4, D5). -/
def Obligations.AndResultAndFailures : Prop :=
  ∀ s : State,
    (s.cfg.aluExt = true → ∀ i j : RegIx, s.pc.toNat + 3 ≤ 255 →
      exec (.and (regByte i) (regByte j)) s =
        .next { s with x := s.x.set i.val (s.x[i] &&& s.x[j]) i.isLt, pc := s.pc + 3 }) ∧
    (s.cfg.aluExt = true → ∀ a b : Byte, 255 < s.pc.toNat + 3 ∨ 7 < a.toNat ∨ 7 < b.toNat →
      exec (.and a b) s = .next { s with run := .failed .outOfRange s.pc (s.opcode .and) }) ∧
    (s.cfg.aluExt = false → ∀ a b : Byte,
      exec (.and a b) s = .next { s with run := .failed .unsupportedOperation s.pc (s.opcode .and) }) ∧
    (∀ a b : Byte, encode defaultOpcodes (.and a b) = [0xA8, a, b])

/-- R106 and R103 for OR (general knowledge, K4, log 9; D4, D5). -/
def Obligations.OrResultAndFailures : Prop :=
  ∀ s : State,
    (s.cfg.aluExt = true → ∀ i j : RegIx, s.pc.toNat + 3 ≤ 255 →
      exec (.or (regByte i) (regByte j)) s =
        .next { s with x := s.x.set i.val (s.x[i] ||| s.x[j]) i.isLt, pc := s.pc + 3 }) ∧
    (s.cfg.aluExt = true → ∀ a b : Byte, 255 < s.pc.toNat + 3 ∨ 7 < a.toNat ∨ 7 < b.toNat →
      exec (.or a b) s = .next { s with run := .failed .outOfRange s.pc (s.opcode .or) }) ∧
    (s.cfg.aluExt = false → ∀ a b : Byte,
      exec (.or a b) s = .next { s with run := .failed .unsupportedOperation s.pc (s.opcode .or) }) ∧
    (∀ a b : Byte, encode defaultOpcodes (.or a b) = [0xAA, a, b])

/-- R107 and R103 for XOR (general knowledge, K4, log 9; D4, D5). -/
def Obligations.XorResultAndFailures : Prop :=
  ∀ s : State,
    (s.cfg.aluExt = true → ∀ i j : RegIx, s.pc.toNat + 3 ≤ 255 →
      exec (.xor (regByte i) (regByte j)) s =
        .next { s with x := s.x.set i.val (s.x[i] ^^^ s.x[j]) i.isLt, pc := s.pc + 3 }) ∧
    (s.cfg.aluExt = true → ∀ a b : Byte, 255 < s.pc.toNat + 3 ∨ 7 < a.toNat ∨ 7 < b.toNat →
      exec (.xor a b) s = .next { s with run := .failed .outOfRange s.pc (s.opcode .xor) }) ∧
    (s.cfg.aluExt = false → ∀ a b : Byte,
      exec (.xor a b) s = .next { s with run := .failed .unsupportedOperation s.pc (s.opcode .xor) }) ∧
    (∀ a b : Byte, encode defaultOpcodes (.xor a b) = [0xAB, a, b])

/-! ### Load and output -/

/-- R120, whole. -/
def Obligations.LdiResultAndFailures : Prop :=
  ∀ s : State,
    (∀ (i : RegIx) (imm : Byte), s.pc.toNat + 3 ≤ 255 →
      exec (.ldi (regByte i) imm) s = .next { s with x := s.x.set i.val imm i.isLt, pc := s.pc + 3 }) ∧
    (∀ a imm : Byte, 255 < s.pc.toNat + 3 ∨ 7 < a.toNat →
      exec (.ldi a imm) s = .next { s with run := .failed .outOfRange s.pc (s.opcode .ldi) }) ∧
    (∀ a imm : Byte, encode defaultOpcodes (.ldi a imm) = [0x82, a, imm])

/-- R121, whole. -/
def Obligations.PrnResultAndFailures : Prop :=
  ∀ s : State,
    (∀ i : RegIx, s.pc.toNat + 2 ≤ 255 →
      exec (.prn (regByte i)) s = .next { s with out := s.out ++ [s.x[i]], pc := s.pc + 2 }) ∧
    (∀ a : Byte, 255 < s.pc.toNat + 2 ∨ 7 < a.toNat →
      exec (.prn a) s = .next { s with run := .failed .outOfRange s.pc (s.opcode .prn) }) ∧
    (∀ a : Byte, encode defaultOpcodes (.prn a) = [0x47, a])

/-! ### Stack -/

/-- R132 with R131: PUSH R7 stores the decremented SP (D24); SP = 0 fails (D10). -/
def Obligations.PushResultAndFailures : Prop :=
  ∀ s : State,
    (∀ i : RegIx, s.pc.toNat + 2 ≤ 255 → 1 ≤ s.x[7].toNat →
      exec (.push (regByte i)) s =
        .next { s with mem := Memory.write s.mem (s.x[7].toNat - 1) (if i = 7 then s.x[7] - 1 else s.x[i]),
                       x := s.x.set 7 (s.x[7] - 1), pc := s.pc + 2 }) ∧
    (∀ a : Byte, 255 < s.pc.toNat + 2 ∨ 7 < a.toNat ∨ s.x[7].toNat = 0 →
      exec (.push a) s = .next { s with run := .failed .outOfRange s.pc (s.opcode .push) }) ∧
    (∀ a : Byte, encode defaultOpcodes (.push a) = [0x45, a])

/-- R133 with R131: POP R7 leaves the popped byte plus 1 (D24); a new SP of 256 fails (D10). -/
def Obligations.PopResultAndFailures : Prop :=
  ∀ s : State,
    (∀ i : RegIx, i ≠ 7 → s.pc.toNat + 2 ≤ 255 → s.x[7].toNat + 1 ≤ 255 →
      exec (.pop (regByte i)) s =
        .next { s with x := (s.x.set i.val (s.memRead s.x[7]) i.isLt).set 7 (s.x[7] + 1), pc := s.pc + 2 }) ∧
    (s.pc.toNat + 2 ≤ 255 → (s.memRead s.x[7]).toNat + 1 ≤ 255 →
      exec (.pop (regByte 7)) s = .next { s with x := s.x.set 7 (s.memRead s.x[7] + 1), pc := s.pc + 2 }) ∧
    (∀ a : Byte, 255 < s.pc.toNat + 2 ∨ 7 < a.toNat ∨ (a.toNat ≠ 7 ∧ s.x[7].toNat = 255) ∨
        (a.toNat = 7 ∧ (s.memRead s.x[7]).toNat = 255) →
      exec (.pop a) s = .next { s with run := .failed .outOfRange s.pc (s.opcode .pop) }) ∧
    (∀ a : Byte, encode defaultOpcodes (.pop a) = [0x46, a])

/-- R134 with R131: CALL R7 jumps to the decremented SP (D24); a return address above 255 (D9) and SP = 0 (D10) fail. -/
def Obligations.CallResultAndFailures : Prop :=
  ∀ s : State,
    (∀ i : RegIx, s.pc.toNat + 2 ≤ 255 → 1 ≤ s.x[7].toNat →
      exec (.call (regByte i)) s =
        .next { s with mem := Memory.write s.mem (s.x[7].toNat - 1) (s.pc + 2),
                       x := s.x.set 7 (s.x[7] - 1), pc := if i = 7 then s.x[7] - 1 else s.x[i] }) ∧
    (∀ a : Byte, 255 < s.pc.toNat + 2 ∨ 7 < a.toNat ∨ s.x[7].toNat = 0 →
      exec (.call a) s = .next { s with run := .failed .outOfRange s.pc (s.opcode .call) }) ∧
    (∀ a : Byte, encode defaultOpcodes (.call a) = [0x50, a])

/-- R135: RET pops the pc, at any pc; SP = 255 fails (D10). -/
def Obligations.RetResultAndFailures : Prop :=
  ∀ s : State,
    (s.x[7].toNat + 1 ≤ 255 →
      exec .ret s = .next { s with x := s.x.set 7 (s.x[7] + 1), pc := s.memRead s.x[7] }) ∧
    (s.x[7].toNat = 255 →
      exec .ret s = .next { s with run := .failed .outOfRange s.pc (s.opcode .ret) }) ∧
    encode defaultOpcodes .ret = [0x11]

/-- The stack round-trip (R137 item 1, an inference of the spec's): PUSH Rr then POP Rq with neither of them R7 moves the
value, restores SP and leaves the value in the slot. -/
def Obligations.PushThenPopMovesTheValue : Prop :=
  ∀ (s : State) (r q : RegIx), s.run = .running → r ≠ 7 → q ≠ 7 → s.pc.toNat + 4 ≤ 255 → 1 ≤ s.x[7].toNat →
    ∃ t, execSeq [.push (regByte r), .pop (regByte q)] s = .next t ∧
      t.x = s.x.set q.val s.x[r] q.isLt ∧
      t.memRead (s.x[7] - 1) = s.x[r] ∧
      (∀ a, a ≠ s.x[7] - 1 → t.memRead a = s.memRead a) ∧
      t.pc = s.pc + 4 ∧ t.fl = s.fl ∧ t.out = s.out ∧ t.run = .running

/-- The call/return balance (R137 item 2, an inference of the spec's): after a CALL whose operand is not R7, any state
with SP at the pushed slot and the slot unchanged returns to the instruction after the CALL with SP as before it. -/
def Obligations.ReturnGoesBackAfterItsCall : Prop :=
  ∀ (s t u : State) (i : RegIx), i ≠ 7 → s.pc.toNat ≤ 253 → 1 ≤ s.x[7].toNat →
    exec (.call (regByte i)) s = .next t →
    u.x[7] = s.x[7] - 1 → u.memRead (s.x[7] - 1) = t.memRead (s.x[7] - 1) →
    exec .ret u = .next { u with x := u.x.set 7 s.x[7], pc := s.pc + 2 }

/-- R137 item 2 for any nesting depth (an inference of the spec's): n CALLs through registers other than R7, then n RETs,
give back every register, SP among them, and the pc after the first CALL. -/
def Obligations.NestedCallsAndReturnsBalance : Prop :=
  ∀ (s : State) (targets : List RegIx), s.run = .running → targets ≠ [] → s.pc.toNat ≤ 253 →
    targets.length ≤ s.x[7].toNat → (∀ i ∈ targets, i ≠ 7) → (∀ i ∈ targets.dropLast, s.x[i].toNat ≤ 253) →
    ∃ t, execSeq (targets.map (fun i => Instr.call (regByte i)) ++ List.replicate targets.length Instr.ret) s = .next t ∧
      t.x = s.x ∧ t.pc = s.pc + 2 ∧ t.fl = s.fl ∧ t.out = s.out ∧ t.run = .running ∧
      (∀ a : Byte, s.x[7].toNat ≤ a.toNat → t.memRead a = s.memRead a)

/-! ### Compare and branch -/

/-- R150, whole (that the comparison is unsigned is the spec's own inference there). -/
def Obligations.CmpResultAndFailures : Prop :=
  ∀ s : State,
    (∀ i j : RegIx, s.pc.toNat + 3 ≤ 255 →
      exec (.cmp (regByte i) (regByte j)) s =
        .next { s with fl := { E := decide (s.x[i].toNat = s.x[j].toNat), G := decide (s.x[j].toNat < s.x[i].toNat),
                               L := decide (s.x[i].toNat < s.x[j].toNat) },
                       pc := s.pc + 3 }) ∧
    (∀ a b : Byte, 255 < s.pc.toNat + 3 ∨ 7 < a.toNat ∨ 7 < b.toNat →
      exec (.cmp a b) s = .next { s with run := .failed .outOfRange s.pc (s.opcode .cmp) }) ∧
    (∀ a b : Byte, encode defaultOpcodes (.cmp a b) = [0xA7, a, b])

/-- R151, whole. -/
def Obligations.JmpResultAndFailures : Prop :=
  ∀ s : State,
    (∀ i : RegIx, s.pc.toNat + 1 ≤ 255 → exec (.jmp (regByte i)) s = .next { s with pc := s.x[i] }) ∧
    (∀ a : Byte, 255 < s.pc.toNat + 1 ∨ 7 < a.toNat →
      exec (.jmp a) s = .next { s with run := .failed .outOfRange s.pc (s.opcode .jmp) }) ∧
    (∀ a : Byte, encode defaultOpcodes (.jmp a) = [0x54, a])

/-- R152, whole. -/
def Obligations.JeqResultAndFailures : Prop :=
  ∀ s : State,
    (∀ i : RegIx, s.fl.E = true → s.pc.toNat + 1 ≤ 255 →
      exec (.jeq (regByte i)) s = .next { s with pc := s.x[i] }) ∧
    (∀ i : RegIx, s.fl.E = false → s.pc.toNat + 2 ≤ 255 →
      exec (.jeq (regByte i)) s = .next { s with pc := s.pc + 2 }) ∧
    (∀ a : Byte, 255 < s.pc.toNat + 1 ∨ 7 < a.toNat ∨ (s.fl.E = false ∧ 255 < s.pc.toNat + 2) →
      exec (.jeq a) s = .next { s with run := .failed .outOfRange s.pc (s.opcode .jeq) }) ∧
    (∀ a : Byte, encode defaultOpcodes (.jeq a) = [0x55, a])

/-- R153, whole. -/
def Obligations.JneResultAndFailures : Prop :=
  ∀ s : State,
    (∀ i : RegIx, s.fl.E = false → s.pc.toNat + 1 ≤ 255 →
      exec (.jne (regByte i)) s = .next { s with pc := s.x[i] }) ∧
    (∀ i : RegIx, s.fl.E = true → s.pc.toNat + 2 ≤ 255 →
      exec (.jne (regByte i)) s = .next { s with pc := s.pc + 2 }) ∧
    (∀ a : Byte, 255 < s.pc.toNat + 1 ∨ 7 < a.toNat ∨ (s.fl.E = true ∧ 255 < s.pc.toNat + 2) →
      exec (.jne a) s = .next { s with run := .failed .outOfRange s.pc (s.opcode .jne) }) ∧
    (∀ a : Byte, encode defaultOpcodes (.jne a) = [0x56, a])

/-- The conditional-branch law (R155, an inference of the spec's): a compare decides the branch right after it, JEQ one
way and JNE the other. -/
def Obligations.CompareDecidesTheBranchAfterIt : Prop :=
  ∀ (s : State) (a b c : RegIx), s.run = .running → s.pc.toNat + 5 ≤ 255 →
    ∃ t u, execSeq [.cmp (regByte a) (regByte b), .jeq (regByte c)] s = .next t ∧
      execSeq [.cmp (regByte a) (regByte b), .jne (regByte c)] s = .next u ∧
      (s.x[a] = s.x[b] → t.pc = s.x[c] ∧ u.pc = s.pc + 5) ∧
      (s.x[a] ≠ s.x[b] → t.pc = s.pc + 5 ∧ u.pc = s.x[c]) ∧
      t.run = .running ∧ u.run = .running

/-! ### HLT and the run state -/

/-- R89: HLT halts from every state; what the run produced (R91: mem, x, FL, out, run) is as it was but for the run
state. The pc it leaves is the spec's choice D14, on which no claim rests, so this says nothing of it. -/
def Obligations.HltHaltsAndChangesNothingElse : Prop :=
  (∀ s : State, ∃ t, exec .hlt s = .next t ∧ t.produced = (s.mem, s.x, s.fl, s.out, .halted) ∧ t.cfg = s.cfg) ∧
    encode defaultOpcodes .hlt = [0x01]

/-- R80, R90: Halted and Failed are terminal. That "no step" is answered as a fault of its name is the model's choice,
log 1. -/
def Obligations.TerminalStatesTakeNoStep : Prop :=
  ∀ s : State,
    (s.run = .halted → step s = .fault .noStepHalted) ∧
    (∀ k fpc fop, s.run = .failed k fpc fop → step s = .fault .noStepFailed)

/-- R81, R172: in Running every step completes with a next state, a failure being one (log 2); a step is refused
nowhere, and has no next state in a terminal state only (log 1). -/
def Obligations.StepAnswersNextExactlyWhenRunning : Prop :=
  ∀ s : State, (∃ t, step s = .next t) ↔ s.run = .running

/-- R28: Halted is entered only via HLT. -/
def Obligations.HaltedIsEnteredOnlyByHlt : Prop :=
  ∀ s t : State, step s = .next t → t.run = .halted →
    s.memRead s.pc = s.opcode .hlt ∧ t.mem = s.mem ∧ t.x = s.x ∧ t.fl = s.fl ∧ t.out = s.out

/-- R171, R172 (D5, D6): a step that fails records its kind, its pc and its opcode byte and changes nothing else. -/
def Obligations.FailingStepChangesOnlyTheRunState : Prop :=
  ∀ (s t : State) (k : FailureKind) (fpc fop : Byte), step s = .next t → t.run = .failed k fpc fop →
    t = { s with run := .failed k s.pc (s.memRead s.pc) }

/-! ### Fetch, decode, dispatch -/

/-- R82 to R86: when the bytes at pc (those of the three that exist) decode to an instruction, a Running step is exec of
it, at that state: the step adds nothing around exec, which itself writes the new pc. -/
def Obligations.StepRunsTheDecodedInstruction : Prop :=
  ∀ (s : State) (i : Instr) (rest : List Byte), s.run = .running →
    decode s.cfg.opcodes (Memory.bytesAt s.mem s.pc.toNat 3) = .ok (i, rest) → step s = exec i s

/-- R66, R83 (D4, D5): an opcode byte that is no mnemonic's fails the run as `UnknownOpcode`, whatever follows it and
wherever it stands, address 255 too; then the same with the bytes of the default `OPCODE` written out (D3, log 7). -/
def Obligations.UnknownOpcodeFailsTheRun : Prop :=
  ∀ s : State, s.run = .running →
    ((∀ m, s.memRead s.pc ≠ s.opcode m) →
      step s = .next { s with run := .failed .unknownOpcode s.pc (s.memRead s.pc) }) ∧
    (s.cfg.opcodes = defaultOpcodes →
      s.memRead s.pc ∉ ([0x01, 0x82, 0x47, 0x45, 0x46, 0x50, 0x11, 0xA7, 0x54, 0x55, 0x56, 0xA0, 0xA2, 0xA1, 0xA8, 0xAA, 0xAB] :
        List Byte) →
      step s = .next { s with run := .failed .unknownOpcode s.pc (s.memRead s.pc) })

/-- R83, R103 (D4, D5): without `ALU_EXT` the bytes of the four optional ALU rows fail the run as `UnsupportedOperation`,
before any operand byte is asked for; then the same with their default bytes written out (D3, log 7). -/
def Obligations.UnsupportedAluOpcodeFailsTheRun : Prop :=
  ∀ s : State, s.run = .running → s.cfg.aluExt = false →
    (∀ m ∈ ([.sub, .and, .or, .xor] : List Mnemonic), mnemonicOf s.cfg.opcodes (s.memRead s.pc) = some m →
      step s = .next { s with run := .failed .unsupportedOperation s.pc (s.opcode m) }) ∧
    (s.cfg.opcodes = defaultOpcodes → s.memRead s.pc ∈ ([0xA1, 0xA8, 0xAA, 0xAB] : List Byte) →
      step s = .next { s with run := .failed .unsupportedOperation s.pc (s.memRead s.pc) })

/-- R84 (D8): an operand byte that would lie above address 255 fails the run as `OutOfRange`, for a row that is not
failed by its class already. -/
def Obligations.MissingOperandByteFailsTheRun : Prop :=
  ∀ (s : State) (m : Mnemonic), s.run = .running → mnemonicOf s.cfg.opcodes (s.memRead s.pc) = some m →
    (s.cfg.aluExt = true ∨ routingOf m ≠ .aluExt) → 255 < s.pc.toNat + (widthOf m - 1) →
    step s = .next { s with run := .failed .outOfRange s.pc (s.opcode m) }

/-- A table word placed for the next fetch is the instruction the next step runs, wherever three bytes fit (the model's
stand-in for the host's load, log 20): what the machine's own `OPCODE` reads in it, which under the default is what
`decodeTableWord` says. -/
def Obligations.PlacedTableWordRunsNext : Prop :=
  ∀ (s : State) (nbits w : Nat) (i : Instr), s.run = .running → s.pc.toNat ≤ 253 →
    (∀ rest, decode s.cfg.opcodes (tableWordBytes nbits w) = .ok (i, rest) →
      step (s.withFetchWord nbits w) = exec i (s.withFetchWord nbits w)) ∧
    (s.cfg.opcodes = defaultOpcodes → decodeTableWord nbits w = some i →
      step (s.withFetchWord nbits w) = exec i (s.withFetchWord nbits w))

/-- R54, R195 (inferences of the spec's): the byte that PUSH or CALL stores, whatever it is, is the opcode byte the very
next fetch at its address reads. For PUSH the slot is the instruction right after it; for CALL it is the target (CALL R7
jumps to its slot always, D24, log 19). The next step classifies and runs the stored byte with the bytes that follow the
slot. -/
def Obligations.PushedByteIsFetchedNext : Prop :=
  ∀ (s : State) (i : RegIx) (slot v : Byte), s.run = .running → s.pc.toNat + 2 ≤ 255 →
    s.memRead (s.pc + 1) = regByte i → s.x[7].toNat = slot.toNat + 1 →
    (mnemonicOf s.cfg.opcodes (s.memRead s.pc) = some .push ∧ slot = s.pc + 2 ∧
        v = (if i = 7 then slot else s.x[i])) ∨
      (mnemonicOf s.cfg.opcodes (s.memRead s.pc) = some .call ∧ (i = 7 ∨ s.x[i] = slot) ∧ v = s.pc + 2) →
    ∃ t, step s = .next t ∧ t.run = .running ∧ t.pc = slot ∧ t.memRead slot = v ∧
      (classOf s.cfg v = .unknown → step t = .next { t with run := .failed .unknownOpcode slot v }) ∧
      (classOf s.cfg v = .aluUnsupported → step t = .next { t with run := .failed .unsupportedOperation slot v }) ∧
      (∀ m, classOf s.cfg v ≠ .aluUnsupported →
        decode s.cfg.opcodes (v :: Memory.bytesAt s.mem (slot.toNat + 1) 2) = .error (.operandMissing m) →
        step t = .next { t with run := .failed .outOfRange slot v }) ∧
      (∀ j rest, decode s.cfg.opcodes (v :: Memory.bytesAt s.mem (slot.toNat + 1) 2) = .ok (j, rest) →
        step t = exec j t)

/-! ### Frames: what an instruction leaves unchanged when exec answers a next state -/

/-- R23 (an inference of the spec's): a register changes only if it is the destination of LDI, POP or an ALU instruction,
or SP under PUSH, POP, CALL or RET. -/
def Obligations.RegistersFrame : Prop :=
  ∀ (i : Instr) (s t : State) (r : RegIx), exec i s = .next t →
    ¬((∃ imm, i = .ldi (regByte r) imm) ∨ i = .pop (regByte r) ∨
      (∃ b, i = .add (regByte r) b ∨ i = .mul (regByte r) b ∨ i = .sub (regByte r) b ∨ i = .and (regByte r) b ∨
        i = .or (regByte r) b ∨ i = .xor (regByte r) b) ∨
      (r = 7 ∧ (i = .ret ∨ ∃ a, i = .push a ∨ i = .pop a ∨ i = .call a))) →
    t.x[r] = s.x[r]

/-- R42: PUSH and CALL store one byte, at the address their meaning computes (`pushSlot?`, SP - 1); every other byte of
memory reads as before, and every byte does when there is no such address. -/
def Obligations.StoringInstructionsMemoryFrame : Prop :=
  ∀ (i : Instr) (s t : State), (∃ a, i = .push a ∨ i = .call a) → exec i s = .next t →
    (∀ slot, pushSlot? s = some slot → ∀ a, a ≠ slot → t.memRead a = s.memRead a) ∧
    (pushSlot? s = none → ∀ a, t.memRead a = s.memRead a)

/-- R42: no instruction but PUSH and CALL writes memory: its cells are the very same list. -/
def Obligations.OtherInstructionsLeaveMemoryAlone : Prop :=
  ∀ (i : Instr) (s t : State), (∀ a, i ≠ .push a ∧ i ≠ .call a) → exec i s = .next t →
    t.mem = s.mem ∧ ∀ a, t.memRead a = s.memRead a

/-- R20, R24, R27, R28: only CMP writes FL, only PRN writes the output channel, only HLT and a failure write the run state,
and no instruction changes the configuration. -/
def Obligations.FlagsOutputRunFrame : Prop :=
  ∀ (i : Instr) (s t : State), exec i s = .next t →
    ((∀ a b, i ≠ .cmp a b) → t.fl = s.fl) ∧
    ((∀ a, i ≠ .prn a) → t.out = s.out) ∧
    (t.run = s.run ∨ (i = .hlt ∧ t.run = .halted) ∨ ∃ k, t.run = .failed k s.pc (s.opcode i.mnemonic)) ∧
    t.cfg = s.cfg

/-! ### Whole-machine rules -/

/-- The invariant holds at launch, whatever the parameters: an image gives a canonical memory. -/
def Obligations.LaunchSatisfiesInvariant : Prop := ∀ p : LaunchParams, (State.launch p).Inv

/-- The invariant holds at reset. -/
def Obligations.ResetSatisfiesInvariant : Prop := State.reset.Inv

/-- Every step keeps the invariant: memory stays canonical, and a failure record names the pc the state holds, the byte at
that pc, and the kind that byte's dispatch class gives (R170 to R173). -/
def Obligations.EveryStepKeepsInvariant : Prop := ∀ s t : State, s.Inv → step s = .next t → t.Inv

/-- R25 (an inference of the spec's): once exactly one flag is set, every later state has exactly one flag set. -/
def Obligations.EveryStepKeepsFlagsOneHot : Prop :=
  ∀ s t : State, (s.fl.toBits = 1#3 ∨ s.fl.toBits = 2#3 ∨ s.fl.toBits = 4#3) → step s = .next t →
    (t.fl.toBits = 1#3 ∨ t.fl.toBits = 2#3 ∨ t.fl.toBits = 4#3)

/-- R24: only a step that fetches CMP can change FL, and it leaves exactly one flag set. -/
def Obligations.FlagsChangeOnlyByCompare : Prop :=
  ∀ s t : State, step s = .next t → t.fl ≠ s.fl →
    s.memRead s.pc = s.opcode .cmp ∧ (t.fl.toBits = 1#3 ∨ t.fl.toBits = 2#3 ∨ t.fl.toBits = 4#3)

/-- R27, R122: a step leaves the output channel alone, or it fetched PRN and appended the register's value. -/
def Obligations.OutputGrowsOnlyByPrn : Prop :=
  ∀ s t : State, step s = .next t →
    t.out = s.out ∨
      (s.memRead s.pc = s.opcode .prn ∧ ∃ i, s.memRead (s.pc + 1) = regByte i ∧ t.out = s.out ++ [s.x[i]])

/-- R42, R48: a byte of memory changes only under PUSH or CALL, and only the byte just below SP, where SP then points. -/
def Obligations.MemoryChangesOnlyJustBelowSP : Prop :=
  ∀ (s t : State) (a : Byte), step s = .next t → t.memRead a ≠ s.memRead a →
    (s.memRead s.pc = s.opcode .push ∨ s.memRead s.pc = s.opcode .call) ∧
      a.toNat + 1 = s.x[7].toNat ∧ t.x[7] = a

/-- R24: G and L are never observed. From two states that differ in G and L alone, a step goes to two states that differ
in G and L alone. -/
def Obligations.GreaterAndLessAreNeverObserved : Prop :=
  ∀ (s t : State) (f : Flags), f.E = s.fl.E → step s = .next t →
    ∃ g : Flags, g.E = t.fl.E ∧ step { s with fl := f } = .next { t with fl := g }

/-- R27: the block never reads the output channel. What a step appends, and all else it does, is the same whatever the
channel held. -/
def Obligations.OutputIsNeverRead : Prop :=
  ∀ (s t : State) (o : List Byte), step s = .next t →
    ∃ new, t.out = s.out ++ new ∧ step { s with out := o } = .next { t with out := o ++ new }

/-- R90, R91, R197 (R197 is the spec's own inference, log 23): what a run under a step bound says about the steps. It has
no result exactly when `n` steps all answer a next state and end Running; its result is exactly the state that at most `n`
steps reach and from which `step` answers no next state; and a larger bound gives the same result, which is Halted or
Failed: running out of fuel is never an end. -/
def Obligations.BoundedRunFollowsItsSteps : Prop :=
  ∀ (n : Nat) (s : State),
    (runFuel n s = none ↔ ∃ u, stepsFrom n s = some u ∧ u.run = .running) ∧
    (∀ t, runFuel n s = some t ↔ (∃ k, k ≤ n ∧ stepsFrom k s = some t) ∧ ∀ u, step t ≠ .next u) ∧
    (∀ m t, n ≤ m → runFuel n s = some t → runFuel m s = some t ∧ t.ended = true)

/-- R20: `ALU_EXT` and `OPCODE` are fixed for a run. No step changes them, a failing one included. -/
def Obligations.NoStepChangesTheConfiguration : Prop :=
  ∀ s t : State, step s = .next t → t.cfg = s.cfg
end

