-- ==== Sys2Proof/Laws/Alu.lean ====
section
/-! SUPPORT. The ALU's exact-then-reduced arithmetic is the 8-bit arithmetic of bit vectors (R108). -/

namespace Sys2Proof.Machine

open Sys2Proof

theorem aluAdd_eq (u v : Byte) : aluAdd u v = u + v := by
  apply BitVec.eq_of_toNat_eq
  simp [aluAdd]

theorem aluMul_eq (u v : Byte) : aluMul u v = u * v := by
  apply BitVec.eq_of_toNat_eq
  simp [aluMul]

theorem aluSub_eq (u v : Byte) : aluSub u v = u - v := by
  have := u.isLt
  have := v.isLt
  apply BitVec.eq_of_toNat_eq
  simp only [aluSub, BitVec.toNat_ofNat, BitVec.toNat_sub]
  omega

end Sys2Proof.Machine
end

