-- ==== Sys2Proof/Laws/Decode.lean ====
section
/-! SUPPORT. What looking up an opcode byte can give, and what that gives the decoder. -/

namespace Sys2Proof

variable {T : OpcodeMap} {b : Byte} {m : Mnemonic}

/-- Every mnemonic is a row of the table. -/
theorem mem_allMnemonics (m : Mnemonic) : m ∈ allMnemonics := by cases m <;> decide

/-- The default `OPCODE` has no byte twice. -/
theorem defaultOpcodes_distinct : defaultOpcodes.Distinct := by decide

/-- A row is found only under its own opcode byte, whatever the `OPCODE`. -/
theorem opcodeOf_of_mnemonicOf (h : mnemonicOf T b = some m) : opcodeOf T m = b := by
  simpa using List.find?_some h

/-- A byte heads no row exactly when it is no mnemonic's opcode byte. -/
theorem mnemonicOf_eq_none : mnemonicOf T b = none ↔ ∀ m, opcodeOf T m ≠ b := by
  simp [mnemonicOf, List.find?_eq_none, mem_allMnemonics]

/-- Under an `OPCODE` without a byte twice, looking an opcode byte up gives its row. -/
theorem mnemonicOf_opcodeOf (hT : T.Distinct) (m : Mnemonic) : mnemonicOf T (opcodeOf T m) = some m := by
  cases h : mnemonicOf T (opcodeOf T m) with
  | none => exact absurd rfl (mnemonicOf_eq_none.mp h m)
  | some m' =>
    rw [List.inj_on_of_nodup_map hT (mem_allMnemonics m') (mem_allMnemonics m) (opcodeOf_of_mnemonicOf h)]

/-- The decoder at a byte that heads a row. -/
theorem decode_cons (h : mnemonicOf T b = some m) (rest : List Byte) :
    decode T (b :: rest) =
      match withOperandBytes m rest with
      | some r => .ok r
      | none => .error (.operandMissing m) := by
  cases hw : withOperandBytes m rest <;> simp only [decode, h, hw]

/-- The decoder at a byte of no row. -/
theorem decode_unknown (h : mnemonicOf T b = none) (rest : List Byte) :
    decode T (b :: rest) = .error (.unknownOpcode b) := by
  simp only [decode, h]

/-- A byte is of class unknown exactly when it heads no row. -/
theorem classOf_unknown_iff (c : Config) (b : Byte) : classOf c b = .unknown ↔ mnemonicOf c.opcodes b = none := by
  unfold classOf
  cases mnemonicOf c.opcodes b with
  | none => simp
  | some m => cases m <;> cases c.aluExt <;> simp [routingOf]

/-- The class of a byte that heads a row is the row's routing under `ALU_EXT`. -/
theorem classOf_of_mnemonicOf {c : Config} (h : mnemonicOf c.opcodes b = some m) :
    (classOf c b = .aluUnsupported ↔ routingOf m = .aluExt ∧ c.aluExt = false) ∧
      (classOf c b = .handler ↔ routingOf m = .handler) := by
  simp only [classOf, h]
  cases m <;> cases c.aluExt <;> simp [routingOf]

/-- What the operand assembly of a row takes is the row's instruction with those bytes as its operands. -/
theorem withOperandBytes_eq_some {bs r : List Byte} {i : Instr}
    (h : withOperandBytes m bs = some (i, r)) : i.mnemonic = m ∧ bs = i.operandBytes ++ r := by
  cases m <;> rcases bs with _ | ⟨x, _ | ⟨y, bs⟩⟩ <;>
    simp only [withOperandBytes, takeNone, takeOne, takeTwo, Option.some.injEq, Prod.mk.injEq, reduceCtorEq] at h <;>
    (obtain ⟨rfl, rfl⟩ := h; exact ⟨rfl, rfl⟩)

/-- The operand assembly gives an instruction back from its own operand bytes. -/
theorem withOperandBytes_operandBytes (i : Instr) (rest : List Byte) :
    withOperandBytes i.mnemonic (i.operandBytes ++ rest) = some (i, rest) := by
  cases i <;> rfl

/-- An instruction has as many operand bytes as its row's width leaves. -/
theorem length_operandBytes (i : Instr) : i.operandBytes.length + 1 = widthOf i.mnemonic := by
  cases i <;> rfl

end Sys2Proof
end

