-- ==== Sys2Proof/Laws/Flags.lean ====
section
/-! SUPPORT. The flags register: its 3-bit layout loses nothing (R24), and what a compare can leave. -/

namespace Sys2Proof.Machine

open Sys2Proof

/-- Three Booleans and the 3-bit value `L ‖ G ‖ E` are the same thing. -/
theorem ofBits_toBits (f : Flags) : Flags.ofBits f.toBits = f := by
  obtain ⟨e, g, l⟩ := f
  cases e <;> cases g <;> cases l <;> decide

theorem toBits_ofBits (v : BitVec 3) : (Flags.ofBits v).toBits = v := by
  revert v; decide

/-- A compare leaves E, G or L, and says which of the three relations holds. -/
theorem compareFlags_cases (u v : Byte) :
    (u.toNat = v.toNat ∧ compareFlags u v = ⟨true, false, false⟩) ∨
    (v.toNat < u.toNat ∧ compareFlags u v = ⟨false, true, false⟩) ∨
    (u.toNat < v.toNat ∧ compareFlags u v = ⟨false, false, true⟩) := by
  unfold compareFlags
  by_cases h : u.toNat = v.toNat
  · exact .inl ⟨h, if_pos h⟩
  · by_cases h' : v.toNat < u.toNat
    · exact .inr (.inl ⟨h', by rw [if_neg h, if_pos h']⟩)
    · exact .inr (.inr ⟨by omega, by rw [if_neg h, if_neg h']⟩)

end Sys2Proof.Machine
end

