-- ==== Sys2Proof/Laws/State.lean ====
section
/-! SUPPORT. One lemma per field per named update of State, so that no later proof unfolds an update; and the laws of
the register file. -/

namespace Sys2Proof.Machine

open Sys2Proof

variable (s : State) (i j : RegIx) (v a : Byte) (f : Flags) (k : FailureKind) (op : Byte)

/-! ### memWrite -/
@[simp] theorem memWrite_mem : (s.memWrite a v).mem = Memory.write s.mem a.toNat v := rfl
@[simp] theorem memWrite_x : (s.memWrite a v).x = s.x := rfl
@[simp] theorem memWrite_fl : (s.memWrite a v).fl = s.fl := rfl
@[simp] theorem memWrite_pc : (s.memWrite a v).pc = s.pc := rfl
@[simp] theorem memWrite_run : (s.memWrite a v).run = s.run := rfl
@[simp] theorem memWrite_out : (s.memWrite a v).out = s.out := rfl
@[simp] theorem memWrite_cfg : (s.memWrite a v).cfg = s.cfg := rfl

/-! ### setReg -/
@[simp] theorem setReg_mem : (s.setReg i v).mem = s.mem := rfl
@[simp] theorem setReg_x : (s.setReg i v).x = s.x.set i.val v i.isLt := rfl
@[simp] theorem setReg_fl : (s.setReg i v).fl = s.fl := rfl
@[simp] theorem setReg_pc : (s.setReg i v).pc = s.pc := rfl
@[simp] theorem setReg_run : (s.setReg i v).run = s.run := rfl
@[simp] theorem setReg_out : (s.setReg i v).out = s.out := rfl
@[simp] theorem setReg_cfg : (s.setReg i v).cfg = s.cfg := rfl

/-! ### setPc -/
@[simp] theorem setPc_mem : (s.setPc v).mem = s.mem := rfl
@[simp] theorem setPc_x : (s.setPc v).x = s.x := rfl
@[simp] theorem setPc_fl : (s.setPc v).fl = s.fl := rfl
@[simp] theorem setPc_pc : (s.setPc v).pc = v := rfl
@[simp] theorem setPc_run : (s.setPc v).run = s.run := rfl
@[simp] theorem setPc_out : (s.setPc v).out = s.out := rfl
@[simp] theorem setPc_cfg : (s.setPc v).cfg = s.cfg := rfl

/-! ### setFlags -/
@[simp] theorem setFlags_mem : (s.setFlags f).mem = s.mem := rfl
@[simp] theorem setFlags_x : (s.setFlags f).x = s.x := rfl
@[simp] theorem setFlags_fl : (s.setFlags f).fl = f := rfl
@[simp] theorem setFlags_pc : (s.setFlags f).pc = s.pc := rfl
@[simp] theorem setFlags_run : (s.setFlags f).run = s.run := rfl
@[simp] theorem setFlags_out : (s.setFlags f).out = s.out := rfl
@[simp] theorem setFlags_cfg : (s.setFlags f).cfg = s.cfg := rfl

/-! ### emit -/
@[simp] theorem emit_mem : (s.emit v).mem = s.mem := rfl
@[simp] theorem emit_x : (s.emit v).x = s.x := rfl
@[simp] theorem emit_fl : (s.emit v).fl = s.fl := rfl
@[simp] theorem emit_pc : (s.emit v).pc = s.pc := rfl
@[simp] theorem emit_run : (s.emit v).run = s.run := rfl
@[simp] theorem emit_out : (s.emit v).out = s.out ++ [v] := rfl
@[simp] theorem emit_cfg : (s.emit v).cfg = s.cfg := rfl

/-! ### halt -/
@[simp] theorem halt_mem : s.halt.mem = s.mem := rfl
@[simp] theorem halt_x : s.halt.x = s.x := rfl
@[simp] theorem halt_fl : s.halt.fl = s.fl := rfl
@[simp] theorem halt_pc : s.halt.pc = s.pc := rfl
@[simp] theorem halt_run : s.halt.run = .halted := rfl
@[simp] theorem halt_out : s.halt.out = s.out := rfl
@[simp] theorem halt_cfg : s.halt.cfg = s.cfg := rfl

/-! ### withFailure -/
@[simp] theorem withFailure_mem : (s.withFailure k op).mem = s.mem := rfl
@[simp] theorem withFailure_x : (s.withFailure k op).x = s.x := rfl
@[simp] theorem withFailure_fl : (s.withFailure k op).fl = s.fl := rfl
@[simp] theorem withFailure_pc : (s.withFailure k op).pc = s.pc := rfl
@[simp] theorem withFailure_run : (s.withFailure k op).run = .failed k s.pc op := rfl
@[simp] theorem withFailure_out : (s.withFailure k op).out = s.out := rfl
@[simp] theorem withFailure_cfg : (s.withFailure k op).cfg = s.cfg := rfl

/-! ### Reads of the register file -/

@[simp] theorem reg_setReg_same : (s.setReg i v).reg i = v := by simp [State.reg]

theorem reg_setReg_other (h : i ≠ j) : (s.setReg i v).reg j = s.reg j := by
  have : i.val ≠ j.val := fun e => h (Fin.ext e)
  simp [State.reg, this]

/-- A register after a write, in one equation. -/
theorem reg_setReg : (s.setReg i v).reg j = if i = j then v else s.reg j := by
  split
  · next h => subst h; exact reg_setReg_same s i v
  · next h => exact reg_setReg_other s i j v h

@[simp] theorem reg_memWrite : (s.memWrite a v).reg i = s.reg i := rfl
@[simp] theorem reg_setPc : (s.setPc v).reg i = s.reg i := rfl
@[simp] theorem reg_setFlags : (s.setFlags f).reg i = s.reg i := rfl
@[simp] theorem reg_emit : (s.emit v).reg i = s.reg i := rfl
@[simp] theorem reg_halt : s.halt.reg i = s.reg i := rfl
@[simp] theorem reg_withFailure : (s.withFailure k op).reg i = s.reg i := rfl

/-- Two register files that read alike are equal. -/
theorem regs_ext {s t : State} (h : ∀ i, s.reg i = t.reg i) : s.x = t.x := by
  apply Vector.ext
  intro n hn
  exact h ⟨n, hn⟩

/-! ### Reads of memory through the updates that leave it alone -/

@[simp] theorem memRead_setReg : (s.setReg i v).memRead a = s.memRead a := rfl
@[simp] theorem memRead_setPc : (s.setPc v).memRead a = s.memRead a := rfl
@[simp] theorem memRead_setFlags : (s.setFlags f).memRead a = s.memRead a := rfl
@[simp] theorem memRead_emit : (s.emit v).memRead a = s.memRead a := rfl
@[simp] theorem memRead_halt : s.halt.memRead a = s.memRead a := rfl
@[simp] theorem memRead_withFailure : (s.withFailure k op).memRead a = s.memRead a := rfl

/-! ### The `OPCODE` in force through every update -/

variable (m : Mnemonic)

@[simp] theorem opcode_memWrite : (s.memWrite a v).opcode m = s.opcode m := rfl
@[simp] theorem opcode_setReg : (s.setReg i v).opcode m = s.opcode m := rfl
@[simp] theorem opcode_setPc : (s.setPc v).opcode m = s.opcode m := rfl
@[simp] theorem opcode_setFlags : (s.setFlags f).opcode m = s.opcode m := rfl
@[simp] theorem opcode_emit : (s.emit v).opcode m = s.opcode m := rfl
@[simp] theorem opcode_halt : s.halt.opcode m = s.opcode m := rfl
@[simp] theorem opcode_withFailure : (s.withFailure k op).opcode m = s.opcode m := rfl

end Sys2Proof.Machine
end

