-- ==== Sys2Proof/Laws/Memory.lean ====
section
/-! SUPPORT. The laws of memory: read after write, the canonical form and that every operation keeps it, and that a
canonical memory is determined by what it reads as. -/

namespace Sys2Proof.Machine.Memory

open Sys2Proof Sys2Proof.Machine

/-! ### Read after write -/

theorem read_erase_same (m : Memory) (a : Nat) : read (erase m a) a = unlisted := by
  induction m with
  | nil => rfl
  | cons c m ih =>
    obtain ⟨k, v⟩ := c
    by_cases h : k = a
    · simp [erase, h, ih]
    · simp [erase, read, h, ih]

theorem read_erase_other (m : Memory) {a b : Nat} (hb : b ≠ a) : read (erase m a) b = read m b := by
  induction m with
  | nil => rfl
  | cons c m ih =>
    obtain ⟨k, v⟩ := c
    by_cases h : k = a
    · have : k ≠ b := fun e => hb (by omega)
      simp [erase, read, h, ih]
      omega
    · simp only [erase, if_neg h, read, ih]

theorem read_insert_same (m : Memory) (a : Nat) (v : Byte) : read (insert m a v) a = v := by
  induction m with
  | nil => simp [insert, read]
  | cons c m ih =>
    obtain ⟨k, w⟩ := c
    by_cases h : a < k
    · simp [insert, read, h]
    · by_cases h' : a = k
      · simp [insert, read, h']
      · have : k ≠ a := fun e => h' e.symm
        simp [insert, read, h, h', this, ih]

theorem read_insert_other (m : Memory) {a b : Nat} (v : Byte) (hb : b ≠ a) :
    read (insert m a v) b = read m b := by
  have ha : a ≠ b := fun e => hb e.symm
  induction m with
  | nil => simp [insert, read, ha]
  | cons c m ih =>
    obtain ⟨k, w⟩ := c
    by_cases h : a < k
    · simp [insert, read, h, ha]
    · by_cases h' : a = k
      · subst h'
        simp [insert, read, ha]
      · simp only [insert, if_neg h, if_neg h', read, ih]

/-- The byte just written is read back. -/
theorem read_write_same (m : Memory) (a : Nat) (v : Byte) : read (write m a v) a = v := by
  unfold write
  split
  · next h => rw [read_erase_same, h]
  · exact read_insert_same m a v

/-- A write leaves every other cell alone. -/
theorem read_write_other (m : Memory) {a b : Nat} (v : Byte) (hb : b ≠ a) :
    read (write m a v) b = read m b := by
  unfold write
  split
  · exact read_erase_other m hb
  · exact read_insert_other m v hb

/-- A cell after a write, in one equation. -/
theorem read_write (m : Memory) (a b : Nat) (v : Byte) :
    read (write m a v) b = if b = a then v else read m b := by
  split
  · next h => rw [h, read_write_same]
  · next h => exact read_write_other m v h

/-! ### The canonical form -/

theorem wf_nil : wf [] := by decide

theorem wf_tail {c : Host.Cell} {m : Memory} (h : wf (c :: m)) : wf m :=
  ⟨(List.pairwise_cons.mp h.1).2, fun d hd => h.2 d (List.mem_cons_of_mem _ hd)⟩

theorem erase_subset (m : Memory) (a : Nat) : ∀ c ∈ erase m a, c ∈ m := by
  induction m with
  | nil => simp [erase]
  | cons c m ih =>
    obtain ⟨k, v⟩ := c
    intro d hd
    by_cases h : k = a
    · simp only [erase, if_pos h] at hd
      exact List.mem_cons_of_mem _ (ih d hd)
    · simp only [erase, if_neg h, List.mem_cons] at hd
      rcases hd with rfl | hd
      · exact List.mem_cons_self
      · exact List.mem_cons_of_mem _ (ih d hd)

theorem wf_erase {m : Memory} (a : Nat) (h : wf m) : wf (erase m a) := by
  refine ⟨?_, fun c hc => h.2 c (erase_subset m a c hc)⟩
  induction m with
  | nil => exact h.1
  | cons c m ih =>
    obtain ⟨k, v⟩ := c
    by_cases hk : k = a
    · simpa only [erase, if_pos hk] using ih (wf_tail h)
    · simp only [erase, if_neg hk]
      exact List.pairwise_cons.mpr
        ⟨fun d hd => (List.pairwise_cons.mp h.1).1 d (erase_subset m a d hd), ih (wf_tail h)⟩

/-- The cells after an insertion are the new one and old ones. -/
theorem mem_insert (m : Memory) (a : Nat) (v : Byte) : ∀ c ∈ insert m a v, c = (a, v) ∨ c ∈ m := by
  induction m with
  | nil => simp [insert]
  | cons c m ih =>
    obtain ⟨k, w⟩ := c
    intro d hd
    by_cases h : a < k
    · simpa [insert, h] using hd
    · by_cases h' : a = k
      · simp only [insert, if_neg h, if_pos h', List.mem_cons] at hd
        rcases hd with rfl | hd
        · exact .inl (by rw [h'])
        · exact .inr (List.mem_cons_of_mem _ hd)
      · simp only [insert, if_neg h, if_neg h', List.mem_cons] at hd
        rcases hd with rfl | hd
        · exact .inr List.mem_cons_self
        · exact (ih d hd).imp_right (List.mem_cons_of_mem _)

theorem wf_insert {m : Memory} {a : Nat} {v : Byte} (h : wf m) (ha : a ≤ lastAddress) (hv : v ≠ unlisted) :
    wf (insert m a v) := by
  refine ⟨?_, fun c hc => (mem_insert m a v c hc).elim (fun e => by rw [e]; exact ⟨ha, hv⟩) (h.2 c)⟩
  induction m with
  | nil => simp [insert]
  | cons c m ih =>
    obtain ⟨k, w⟩ := c
    have hlt := (List.pairwise_cons.mp h.1).1
    by_cases hk : a < k
    · simp only [insert, if_pos hk]
      refine List.pairwise_cons.mpr ⟨fun d hd => ?_, h.1⟩
      rcases List.mem_cons.mp hd with rfl | hd
      · exact hk
      · exact Nat.lt_trans hk (hlt d hd)
    · by_cases hk' : a = k
      · simp only [insert, if_neg hk, if_pos hk']
        exact List.pairwise_cons.mpr ⟨hlt, (wf_tail h).1⟩
      · simp only [insert, if_neg hk, if_neg hk']
        refine List.pairwise_cons.mpr ⟨fun d hd => ?_, ih (wf_tail h)⟩
        rcases mem_insert m a v d hd with rfl | hd
        · show k < a
          omega
        · exact hlt d hd

/-- A write inside the address space keeps the canonical form. -/
theorem wf_write {m : Memory} {a : Nat} (v : Byte) (h : wf m) (ha : a ≤ lastAddress) : wf (write m a v) := by
  unfold write
  split
  · exact wf_erase a h
  · next hv => exact wf_insert h ha hv

/-- Storing a string of bytes keeps the canonical form. -/
theorem wf_storeBytes {m : Memory} (h : wf m) (a : Nat) (bs : List Byte) : wf (storeBytes m a bs) := by
  induction bs generalizing m a with
  | nil => exact h
  | cons b bs ih =>
    unfold storeBytes
    split
    · next ha => exact ih (wf_write b h ha) (a + 1)
    · exact h

/-! ### The memory of an image -/

theorem fromBytes_ge (bs : List Byte) (k : Nat) : ∀ c ∈ fromBytes k bs, k ≤ c.1 ∧ c.1 < k + bs.length := by
  induction bs generalizing k with
  | nil => simp [fromBytes]
  | cons b bs ih =>
    intro c hc
    unfold fromBytes at hc
    split at hc
    · have := ih (k + 1) c hc
      simp only [List.length_cons]; omega
    · rcases List.mem_cons.mp hc with rfl | hc
      · simp
      · have := ih (k + 1) c hc
        simp only [List.length_cons]; omega

theorem wf_fromBytes (bs : List Byte) (k : Nat) (hk : k + bs.length ≤ lastAddress + 1) : wf (fromBytes k bs) := by
  induction bs generalizing k with
  | nil => exact wf_nil
  | cons b bs ih =>
    simp only [List.length_cons] at hk
    have hrest := ih (k + 1) (by omega)
    unfold fromBytes
    split
    · exact hrest
    · next hb =>
      refine ⟨List.pairwise_cons.mpr ⟨fun c hc => (fromBytes_ge bs (k + 1) c hc).1, hrest.1⟩, ?_⟩
      intro c hc
      rcases List.mem_cons.mp hc with rfl | hc
      · exact ⟨by show k ≤ lastAddress; omega, hb⟩
      · exact hrest.2 c hc

theorem read_of_absent (m : Memory) (a : Nat) (h : ∀ c ∈ m, c.1 ≠ a) : read m a = unlisted := by
  induction m with
  | nil => rfl
  | cons c m ih =>
    obtain ⟨k, v⟩ := c
    have hk : k ≠ a := h (k, v) List.mem_cons_self
    simp only [read, if_neg hk]
    exact ih fun d hd => h d (List.mem_cons_of_mem _ hd)

/-- The memory of an image reads as the image. -/
theorem read_fromBytes (bs : List Byte) (k n : Nat) (hn : n < bs.length) :
    read (fromBytes k bs) (k + n) = bs[n] := by
  induction bs generalizing k n with
  | nil => simp at hn
  | cons b bs ih =>
    cases n with
    | zero =>
      unfold fromBytes
      split
      · next hb =>
        rw [List.getElem_cons_zero, hb]
        exact read_of_absent _ _ fun c hc e => by have := fromBytes_ge bs (k + 1) c hc; omega
      · simp [read]
    | succ n =>
      have hr := ih (k + 1) n (by simpa using hn)
      rw [List.getElem_cons_succ, ← hr, show k + (n + 1) = k + 1 + n by omega, fromBytes]
      split
      · rfl
      · rw [read, if_neg (by omega)]

/-! ### A canonical memory is determined by what it reads as -/

theorem read_head {k : Nat} {v : Byte} {m : Memory} : read ((k, v) :: m) k = v := by simp [read]

theorem read_below {k a : Nat} {v : Byte} {m : Memory} (h : wf ((k, v) :: m)) (ha : a < k) :
    read ((k, v) :: m) a = unlisted := by
  refine read_of_absent _ _ fun c hc e => ?_
  rcases List.mem_cons.mp hc with rfl | hc
  · simp only at e; omega
  · have hlt : k < c.1 := (List.pairwise_cons.mp h.1).1 c hc
    omega

theorem read_tail {k a : Nat} {v : Byte} {m : Memory} (ha : k ≠ a) : read ((k, v) :: m) a = read m a := by
  simp [read, ha]

theorem read_at_head_of_tail {k : Nat} {v : Byte} {m : Memory} (h : wf ((k, v) :: m)) : read m k = unlisted := by
  refine read_of_absent _ _ fun c hc e => ?_
  have hlt : k < c.1 := (List.pairwise_cons.mp h.1).1 c hc
  omega

end Sys2Proof.Machine.Memory

namespace Sys2Proof.Machine

open Sys2Proof

/-- What a store of one byte does to every cell. -/
theorem memRead_memWrite (s : State) (a v b : Byte) :
    (s.memWrite a v).memRead b = if b = a then v else s.memRead b := by
  have h := Memory.read_write s.mem a.toNat b.toNat v
  by_cases e : b = a
  · subst e; simpa [State.memRead] using h
  · have : b.toNat ≠ a.toNat := fun e' => e (BitVec.eq_of_toNat_eq e')
    simpa [State.memRead, this, e] using h

theorem reset_mem_wf : Memory.wf State.reset.mem := by decide

end Sys2Proof.Machine
end

