-- ==== Sys2Proof/Laws/Ops.lean ====
section
/-! SUPPORT. One lemma per shared operation that says everything it can do: it raises `OutOfRange`, or its checks held and
it went on. -/

namespace Sys2Proof.Machine

open Sys2Proof

variable {m : Mnemonic} {a b : Byte} {s : State}

/-! ### Register fields -/

theorem regIndex_regByte (i : RegIx) : regIndex? (regByte i) = some i := by
  revert i; decide

theorem regIndex_eq_some {i : RegIx} (h : regIndex? a = some i) : a = regByte i := by
  unfold regIndex? at h
  split at h
  · next hlt =>
    cases h
    simp [regByte]
  · cases h

theorem regByte_le (i : RegIx) : (regByte i).toNat ≤ 7 := by
  revert i; decide

theorem regIndex_eq_none (h : 7 < a.toNat) : regIndex? a = none := by
  unfold regIndex?
  rw [dif_neg (by omega)]

theorem regIndex_none_iff : regIndex? a = none ↔ 7 < a.toNat := by
  refine ⟨fun h => ?_, regIndex_eq_none⟩
  unfold regIndex? at h
  split at h
  · cases h
  · omega

/-- Every operand byte names a register or is 8 to 255. -/
theorem regByte_or_bad (a : Byte) : (∃ i, a = regByte i) ∨ 7 < a.toNat := by
  cases h : regIndex? a with
  | none => exact .inr (regIndex_none_iff.mp h)
  | some i => exact .inl ⟨i, regIndex_eq_some h⟩

/-! ### Checks and operand forms -/

theorem requireRange_pos {c : Prop} [Decidable c] {k : Result} (h : c) : requireRange m s c k = k := if_pos h

theorem requireRange_neg {c : Prop} [Decidable c] {k : Result} (h : ¬c) :
    requireRange m s c k = raise .outOfRange (s.opcode m) s := if_neg h

theorem withReg_regByte (i : RegIx) {k : RegIx → Result} : withReg m (regByte i) s k = k i := by
  simp [withReg, regIndex_regByte]

theorem withReg_bad (h : 7 < a.toNat) {k : RegIx → Result} :
    withReg m a s k = raise .outOfRange (s.opcode m) s := by
  simp [withReg, regIndex_eq_none h]

theorem withR_regByte (i : RegIx) {k : RegIx → Result} (h : s.pc.toNat + 1 ≤ 255) :
    withR m (regByte i) s k = k i := by
  rw [withR, requireRange_pos h, withReg_regByte]

theorem withR_bad {k : RegIx → Result} (h : 255 < s.pc.toNat + 1 ∨ 7 < a.toNat) :
    withR m a s k = raise .outOfRange (s.opcode m) s := by
  unfold withR
  by_cases hp : s.pc.toNat + 1 ≤ 255
  · rw [requireRange_pos hp, withReg_bad (by omega)]
  · rw [requireRange_neg hp]

/-- Format R: the failure of a check, or the operand register. -/
theorem withR_cases (k : RegIx → Result) :
    withR m a s k = raise .outOfRange (s.opcode m) s ∨
      ∃ i, a = regByte i ∧ s.pc.toNat + 1 ≤ 255 ∧ withR m a s k = k i := by
  rcases regByte_or_bad a with ⟨i, rfl⟩ | hb
  · by_cases hp : s.pc.toNat + 1 ≤ 255
    · exact .inr ⟨i, rfl, hp, withR_regByte i hp⟩
    · exact .inl (withR_bad (.inl (by omega)))
  · exact .inl (withR_bad (.inr hb))

theorem withRI_regByte (i : RegIx) {k : RegIx → Result} (h : s.pc.toNat + 2 ≤ 255) :
    withRI m (regByte i) s k = k i := by
  have h1 : s.pc.toNat + 1 ≤ lastAddress := by show _ ≤ 255; omega
  rw [withRI, requireRange_pos h1, requireRange_pos h, withReg_regByte]

theorem withRI_bad {k : RegIx → Result} (h : 255 < s.pc.toNat + 2 ∨ 7 < a.toNat) :
    withRI m a s k = raise .outOfRange (s.opcode m) s := by
  unfold withRI
  by_cases h1 : s.pc.toNat + 1 ≤ lastAddress
  · rw [requireRange_pos h1]
    by_cases h2 : s.pc.toNat + 2 ≤ 255
    · rw [requireRange_pos h2, withReg_bad (by omega)]
    · rw [requireRange_neg h2]
  · rw [requireRange_neg h1]

/-- Format RI: the failure of a check, or the operand register. -/
theorem withRI_cases (k : RegIx → Result) :
    withRI m a s k = raise .outOfRange (s.opcode m) s ∨
      ∃ i, a = regByte i ∧ s.pc.toNat + 2 ≤ 255 ∧ withRI m a s k = k i := by
  rcases regByte_or_bad a with ⟨i, rfl⟩ | hb
  · by_cases hp : s.pc.toNat + 2 ≤ 255
    · exact .inr ⟨i, rfl, hp, withRI_regByte i hp⟩
    · exact .inl (withRI_bad (.inl (by omega)))
  · exact .inl (withRI_bad (.inr hb))

theorem withRR_regByte (i j : RegIx) {k : RegIx → RegIx → Result} (h : s.pc.toNat + 2 ≤ 255) :
    withRR m (regByte i) (regByte j) s k = k i j := by
  have h1 : s.pc.toNat + 1 ≤ lastAddress := by show _ ≤ 255; omega
  rw [withRR, requireRange_pos h1, requireRange_pos h, withReg_regByte, withReg_regByte]

theorem withRR_bad {k : RegIx → RegIx → Result} (h : 255 < s.pc.toNat + 2 ∨ 7 < a.toNat ∨ 7 < b.toNat) :
    withRR m a b s k = raise .outOfRange (s.opcode m) s := by
  unfold withRR
  by_cases h1 : s.pc.toNat + 1 ≤ lastAddress
  · rw [requireRange_pos h1]
    by_cases h2 : s.pc.toNat + 2 ≤ 255
    · rw [requireRange_pos h2]
      rcases regByte_or_bad a with ⟨i, rfl⟩ | ha
      · rw [withReg_regByte]
        refine withReg_bad ?_
        have := regByte_le i
        omega
      · exact withReg_bad ha
    · rw [requireRange_neg h2]
  · rw [requireRange_neg h1]

/-- Format RR: the failure of a check, or the two operand registers. -/
theorem withRR_cases (k : RegIx → RegIx → Result) :
    withRR m a b s k = raise .outOfRange (s.opcode m) s ∨
      ∃ i j, a = regByte i ∧ b = regByte j ∧ s.pc.toNat + 2 ≤ 255 ∧ withRR m a b s k = k i j := by
  rcases regByte_or_bad a with ⟨i, rfl⟩ | ha
  · rcases regByte_or_bad b with ⟨j, rfl⟩ | hb
    · by_cases hp : s.pc.toNat + 2 ≤ 255
      · exact .inr ⟨i, j, rfl, rfl, hp, withRR_regByte i j hp⟩
      · exact .inl (withRR_bad (.inl (by omega)))
    · exact .inl (withRR_bad (.inr (.inr hb)))
  · exact .inl (withRR_bad (.inr (.inl ha)))

/-! ### Next pc and stack addresses -/

/-- An address plus a width that stays an address is the 8-bit sum. -/
theorem ofNat_add_eq (p : Byte) (w : Nat) : BitVec.ofNat 8 (p.toNat + w) = p + BitVec.ofNat 8 w := by
  apply BitVec.eq_of_toNat_eq
  simp

theorem sequential_ok {k : Byte → Result} (h : s.pc.toNat + widthOf m ≤ 255) :
    sequential m s k = k (s.pc + BitVec.ofNat 8 (widthOf m)) := by
  simp only [sequential, nextPc?, if_pos h, ofNat_add_eq]

theorem sequential_bad {k : Byte → Result} (h : 255 < s.pc.toNat + widthOf m) :
    sequential m s k = raise .outOfRange (s.opcode m) s := by
  simp only [sequential, nextPc?, if_neg (Nat.not_le.mpr h)]

/-- The sequential next pc: past 255 it fails, else the pc plus the width. -/
theorem sequential_cases (k : Byte → Result) :
    sequential m s k = raise .outOfRange (s.opcode m) s ∨
      s.pc.toNat + widthOf m ≤ 255 ∧ sequential m s k = k (s.pc + BitVec.ofNat 8 (widthOf m)) := by
  by_cases h : s.pc.toNat + widthOf m ≤ 255
  · exact .inr ⟨h, sequential_ok h⟩
  · exact .inl (sequential_bad (by omega))

theorem pushSlot_ok (h : 1 ≤ s.sp.toNat) : pushSlot? s = some (s.sp - 1) := by
  rw [pushSlot?, if_pos h]
  congr 1
  bv_omega

theorem pushSlot_bad (h : s.sp.toNat = 0) : pushSlot? s = none := by
  rw [pushSlot?, if_neg (by omega)]

theorem popSp_ok (h : s.sp.toNat + 1 ≤ 255) : popSp? s = some (s.sp + 1) := by
  rw [popSp?, if_pos h, ofNat_add_eq]
  rfl

theorem popSp_bad (h : 255 < s.sp.toNat + 1) : popSp? s = none := by
  rw [popSp?, if_neg (Nat.not_le.mpr h)]

end Sys2Proof.Machine
end

