-- ==== Sys2Proof/Laws/Instr.lean ====
section
/-! SUPPORT. What each shape of instruction can do, and from these what ANY instruction can do: `exec` answers a next state,
which is a failure or the instruction's effect (`Effect`). Proofs over all instructions cite `exec_cases`. -/

namespace Sys2Proof.Machine

open Sys2Proof

variable {m : Mnemonic} {a b : Byte} {s t : State}

/-! ### The shared shapes -/

theorem aluInstr_ok {f : Byte → Byte → Byte} (hm : widthOf m = 3) (i j : RegIx) (h : s.pc.toNat + 3 ≤ 255) :
    aluInstr m f (regByte i) (regByte j) s = .next ((s.setReg i (f (s.reg i) (s.reg j))).setPc (s.pc + 3)) := by
  rw [aluInstr, withRR_regByte i j (by omega), sequential_ok (by omega), hm]
  rfl

theorem aluInstr_bad {f : Byte → Byte → Byte} (hm : widthOf m = 3)
    (h : 255 < s.pc.toNat + 3 ∨ 7 < a.toNat ∨ 7 < b.toNat) :
    aluInstr m f a b s = raise .outOfRange (s.opcode m) s := by
  by_cases hop : 255 < s.pc.toNat + 2 ∨ 7 < a.toNat ∨ 7 < b.toNat
  · exact withRR_bad hop
  · obtain ⟨i, rfl⟩ := (regByte_or_bad a).resolve_right (by omega)
    obtain ⟨j, rfl⟩ := (regByte_or_bad b).resolve_right (by omega)
    rw [aluInstr, withRR_regByte i j (by omega), sequential_bad (by omega)]

/-- An ALU instruction: `OutOfRange`, or the result in the first register. -/
theorem aluInstr_cases {f : Byte → Byte → Byte} (hm : widthOf m = 3) :
    aluInstr m f a b s = raise .outOfRange (s.opcode m) s ∨
      ∃ i j, a = regByte i ∧ b = regByte j ∧ s.pc.toNat + 3 ≤ 255 ∧
        aluInstr m f a b s = .next ((s.setReg i (f (s.reg i) (s.reg j))).setPc (s.pc + 3)) := by
  rcases regByte_or_bad a with ⟨i, rfl⟩ | ha
  · rcases regByte_or_bad b with ⟨j, rfl⟩ | hb
    · by_cases h : s.pc.toNat + 3 ≤ 255
      · exact .inr ⟨i, j, rfl, rfl, h, aluInstr_ok hm i j h⟩
      · exact .inl (aluInstr_bad hm (.inl (by omega)))
    · exact .inl (aluInstr_bad hm (.inr (.inr hb)))
  · exact .inl (aluInstr_bad hm (.inr (.inl ha)))

theorem aluExtInstr_on {f : Byte → Byte → Byte} (h : s.cfg.aluExt = true) :
    aluExtInstr m f a b s = aluInstr m f a b s := if_pos h

theorem aluExtInstr_off {f : Byte → Byte → Byte} (h : s.cfg.aluExt = false) :
    aluExtInstr m f a b s = raise .unsupportedOperation (s.opcode m) s := if_neg (by simp [h])

theorem withPushSlot_ok {k : Byte → State → Result} (h : 1 ≤ s.sp.toNat) :
    withPushSlot m s k = k (s.sp - 1) (s.setReg spIndex (s.sp - 1)) := by
  simp only [withPushSlot, pushSlot_ok h]

theorem withPushSlot_bad {k : Byte → State → Result} (h : s.sp.toNat = 0) :
    withPushSlot m s k = raise .outOfRange (s.opcode m) s := by
  simp only [withPushSlot, pushSlot_bad h]

theorem branchIf_taken (i : RegIx) (h : s.pc.toNat + 1 ≤ 255) :
    branchIf m true (regByte i) s = .next (s.setPc (s.reg i)) := by
  rw [branchIf, withR_regByte i h, if_pos rfl]

theorem branchIf_not_taken (hm : widthOf m = 2) (i : RegIx) (h : s.pc.toNat + 2 ≤ 255) :
    branchIf m false (regByte i) s = .next (s.setPc (s.pc + 2)) := by
  rw [branchIf, withR_regByte i (by omega), if_neg (by simp), sequential_ok (by omega), hm]
  rfl

/-- A conditional jump: `OutOfRange`, the register's value, or the pc plus 2. -/
theorem branchIf_cases (hm : widthOf m = 2) (taken : Bool) :
    branchIf m taken a s = raise .outOfRange (s.opcode m) s ∨
      ∃ i, a = regByte i ∧ s.pc.toNat + 1 ≤ 255 ∧ (taken = false → s.pc.toNat + 2 ≤ 255) ∧
        branchIf m taken a s = .next (s.setPc (if taken then s.reg i else s.pc + 2)) := by
  rcases withR_cases (m := m) (a := a) (s := s)
      (fun i => if taken then .next (s.setPc (s.reg i)) else sequential m s fun npc => .next (s.setPc npc))
    with h | ⟨i, rfl, hp, h⟩
  · exact .inl h
  · cases taken with
    | true => exact .inr ⟨i, rfl, hp, by simp, by simpa using branchIf_taken i hp⟩
    | false =>
      by_cases h2 : s.pc.toNat + 2 ≤ 255
      · exact .inr ⟨i, rfl, hp, fun _ => h2, by simpa using branchIf_not_taken hm i h2⟩
      · refine .inl ?_
        rw [branchIf, h, if_neg (by simp), sequential_bad (by omega)]

/-! ### The effect of each instruction -/

/-- What an instruction does when none of its checks fails. -/
def Effect (ins : Instr) (s t : State) : Prop :=
  match ins with
  | .hlt => t = s.halt
  | .ldi a imm => ∃ i, a = regByte i ∧ s.pc.toNat + 3 ≤ 255 ∧ t = (s.setReg i imm).setPc (s.pc + 3)
  | .prn a => ∃ i, a = regByte i ∧ s.pc.toNat + 2 ≤ 255 ∧ t = (s.emit (s.reg i)).setPc (s.pc + 2)
  | .push a => ∃ i, a = regByte i ∧ s.pc.toNat + 2 ≤ 255 ∧ 1 ≤ s.sp.toNat ∧
      t = ((s.setReg spIndex (s.sp - 1)).memWrite (s.sp - 1) ((s.setReg spIndex (s.sp - 1)).reg i)).setPc (s.pc + 2)
  | .pop a => ∃ i, a = regByte i ∧ s.pc.toNat + 2 ≤ 255 ∧ (s.setReg i (s.memRead s.sp)).sp.toNat + 1 ≤ 255 ∧
      t = ((s.setReg i (s.memRead s.sp)).setReg spIndex ((s.setReg i (s.memRead s.sp)).sp + 1)).setPc (s.pc + 2)
  | .call a => ∃ i, a = regByte i ∧ s.pc.toNat + 2 ≤ 255 ∧ 1 ≤ s.sp.toNat ∧
      t = ((s.setReg spIndex (s.sp - 1)).memWrite (s.sp - 1) (s.pc + 2)).setPc ((s.setReg spIndex (s.sp - 1)).reg i)
  | .ret => s.sp.toNat + 1 ≤ 255 ∧ t = (s.setReg spIndex (s.sp + 1)).setPc (s.memRead s.sp)
  | .cmp a b => ∃ i j, a = regByte i ∧ b = regByte j ∧ s.pc.toNat + 3 ≤ 255 ∧
      t = (s.setFlags (compareFlags (s.reg i) (s.reg j))).setPc (s.pc + 3)
  | .jmp a => ∃ i, a = regByte i ∧ s.pc.toNat + 1 ≤ 255 ∧ t = s.setPc (s.reg i)
  | .jeq a => ∃ i, a = regByte i ∧ s.pc.toNat + 1 ≤ 255 ∧ (s.fl.E = false → s.pc.toNat + 2 ≤ 255) ∧
      t = s.setPc (if s.fl.E then s.reg i else s.pc + 2)
  | .jne a => ∃ i, a = regByte i ∧ s.pc.toNat + 1 ≤ 255 ∧ (s.fl.E = true → s.pc.toNat + 2 ≤ 255) ∧
      t = s.setPc (if s.fl.E then s.pc + 2 else s.reg i)
  | .add a b => ∃ i j, a = regByte i ∧ b = regByte j ∧ s.pc.toNat + 3 ≤ 255 ∧
      t = (s.setReg i (aluAdd (s.reg i) (s.reg j))).setPc (s.pc + 3)
  | .mul a b => ∃ i j, a = regByte i ∧ b = regByte j ∧ s.pc.toNat + 3 ≤ 255 ∧
      t = (s.setReg i (aluMul (s.reg i) (s.reg j))).setPc (s.pc + 3)
  | .sub a b => ∃ i j, a = regByte i ∧ b = regByte j ∧ s.pc.toNat + 3 ≤ 255 ∧ s.cfg.aluExt = true ∧
      t = (s.setReg i (aluSub (s.reg i) (s.reg j))).setPc (s.pc + 3)
  | .and a b => ∃ i j, a = regByte i ∧ b = regByte j ∧ s.pc.toNat + 3 ≤ 255 ∧ s.cfg.aluExt = true ∧
      t = (s.setReg i (aluAnd (s.reg i) (s.reg j))).setPc (s.pc + 3)
  | .or a b => ∃ i j, a = regByte i ∧ b = regByte j ∧ s.pc.toNat + 3 ≤ 255 ∧ s.cfg.aluExt = true ∧
      t = (s.setReg i (aluOr (s.reg i) (s.reg j))).setPc (s.pc + 3)
  | .xor a b => ∃ i j, a = regByte i ∧ b = regByte j ∧ s.pc.toNat + 3 ≤ 255 ∧ s.cfg.aluExt = true ∧
      t = (s.setReg i (aluXor (s.reg i) (s.reg j))).setPc (s.pc + 3)

/-- A failure an instruction's own meaning can raise: `OutOfRange`, or `UnsupportedOperation` for a row that
`ALU_EXT` would support and does not. -/
def OwnFailure (ins : Instr) (s : State) (k : FailureKind) : Prop :=
  k = .outOfRange ∧ (routingOf ins.mnemonic = .aluExt → s.cfg.aluExt = true) ∨
    k = .unsupportedOperation ∧ routingOf ins.mnemonic = .aluExt ∧ s.cfg.aluExt = false

/-- `exec` fails with a failure of the instruction's own, or has its effect; it answers nothing else. -/
def Answers (ins : Instr) (s : State) : Prop :=
  (∃ k, OwnFailure ins s k ∧ exec ins s = raise k (s.opcode ins.mnemonic) s) ∨
    ∃ t, Effect ins s t ∧ exec ins s = .next t

theorem answers_outOfRange {ins : Instr} (hr : routingOf ins.mnemonic ≠ .aluExt)
    (h : exec ins s = raise .outOfRange (s.opcode ins.mnemonic) s) : Answers ins s :=
  .inl ⟨.outOfRange, .inl ⟨rfl, fun e => absurd e hr⟩, h⟩

theorem answers_hlt : Answers .hlt s := .inr ⟨_, rfl, rfl⟩

theorem answers_ldi (a imm : Byte) : Answers (.ldi a imm) s := by
  rcases withRI_cases (m := .ldi) (a := a) (s := s)
      (fun i => sequential .ldi s fun npc => .next ((s.setReg i imm).setPc npc)) with h | ⟨i, rfl, -, h⟩
  · exact answers_outOfRange (by simp [Instr.mnemonic, routingOf]) h
  · rcases sequential_cases (m := .ldi) (s := s) (fun npc => .next ((s.setReg i imm).setPc npc)) with h' | ⟨hp, h'⟩
    · exact answers_outOfRange (by simp [Instr.mnemonic, routingOf]) (h.trans h')
    · exact .inr ⟨_, ⟨i, rfl, hp, rfl⟩, h.trans h'⟩

theorem answers_prn (a : Byte) : Answers (.prn a) s := by
  rcases withR_cases (m := .prn) (a := a) (s := s)
      (fun i => sequential .prn s fun npc => .next ((s.emit (s.reg i)).setPc npc)) with h | ⟨i, rfl, -, h⟩
  · exact answers_outOfRange (by simp [Instr.mnemonic, routingOf]) h
  · rcases sequential_cases (m := .prn) (s := s) (fun npc => .next ((s.emit (s.reg i)).setPc npc)) with h' | ⟨hp, h'⟩
    · exact answers_outOfRange (by simp [Instr.mnemonic, routingOf]) (h.trans h')
    · exact .inr ⟨_, ⟨i, rfl, hp, rfl⟩, h.trans h'⟩

theorem execPush_ok (i : RegIx) (hp : s.pc.toNat + 2 ≤ 255) (hs : 1 ≤ s.sp.toNat) :
    execPush (regByte i) s = .next (((s.setReg spIndex (s.sp - 1)).memWrite (s.sp - 1)
      ((s.setReg spIndex (s.sp - 1)).reg i)).setPc (s.pc + 2)) := by
  rw [execPush, withR_regByte i (by omega), sequential_ok (m := .push) hp, withPushSlot_ok hs]
  rfl

theorem execPush_bad (h : 255 < s.pc.toNat + 2 ∨ 7 < a.toNat ∨ s.sp.toNat = 0) :
    execPush a s = raise .outOfRange (s.opcode .push) s := by
  by_cases hop : 255 < s.pc.toNat + 1 ∨ 7 < a.toNat
  · exact withR_bad hop
  · obtain ⟨i, rfl⟩ := (regByte_or_bad a).resolve_right (by omega)
    rw [execPush, withR_regByte i (by omega)]
    by_cases hp : s.pc.toNat + 2 ≤ 255
    · rw [sequential_ok (m := .push) hp, withPushSlot_bad (by omega)]
    · exact sequential_bad (m := .push) (by show 255 < s.pc.toNat + 2; omega)

theorem answers_push (a : Byte) : Answers (.push a) s := by
  rcases regByte_or_bad a with ⟨i, rfl⟩ | ha
  · by_cases hp : s.pc.toNat + 2 ≤ 255
    · by_cases hs : 1 ≤ s.sp.toNat
      · exact .inr ⟨_, ⟨i, rfl, hp, hs, rfl⟩, execPush_ok i hp hs⟩
      · exact answers_outOfRange (by simp [Instr.mnemonic, routingOf]) (execPush_bad (.inr (.inr (by omega))))
    · exact answers_outOfRange (by simp [Instr.mnemonic, routingOf]) (execPush_bad (.inl (by omega)))
  · exact answers_outOfRange (by simp [Instr.mnemonic, routingOf]) (execPush_bad (.inr (.inl ha)))

theorem execCall_ok (i : RegIx) (hp : s.pc.toNat + 2 ≤ 255) (hs : 1 ≤ s.sp.toNat) :
    execCall (regByte i) s = .next (((s.setReg spIndex (s.sp - 1)).memWrite (s.sp - 1) (s.pc + 2)).setPc
      ((s.setReg spIndex (s.sp - 1)).reg i)) := by
  rw [execCall, withR_regByte i (by omega), sequential_ok (m := .call) hp, withPushSlot_ok hs]
  rfl

theorem execCall_bad (h : 255 < s.pc.toNat + 2 ∨ 7 < a.toNat ∨ s.sp.toNat = 0) :
    execCall a s = raise .outOfRange (s.opcode .call) s := by
  by_cases hop : 255 < s.pc.toNat + 1 ∨ 7 < a.toNat
  · exact withR_bad hop
  · obtain ⟨i, rfl⟩ := (regByte_or_bad a).resolve_right (by omega)
    rw [execCall, withR_regByte i (by omega)]
    by_cases hp : s.pc.toNat + 2 ≤ 255
    · rw [sequential_ok (m := .call) hp, withPushSlot_bad (by omega)]
    · exact sequential_bad (m := .call) (by show 255 < s.pc.toNat + 2; omega)

theorem answers_call (a : Byte) : Answers (.call a) s := by
  rcases regByte_or_bad a with ⟨i, rfl⟩ | ha
  · by_cases hp : s.pc.toNat + 2 ≤ 255
    · by_cases hs : 1 ≤ s.sp.toNat
      · exact .inr ⟨_, ⟨i, rfl, hp, hs, rfl⟩, execCall_ok i hp hs⟩
      · exact answers_outOfRange (by simp [Instr.mnemonic, routingOf]) (execCall_bad (.inr (.inr (by omega))))
    · exact answers_outOfRange (by simp [Instr.mnemonic, routingOf]) (execCall_bad (.inl (by omega)))
  · exact answers_outOfRange (by simp [Instr.mnemonic, routingOf]) (execCall_bad (.inr (.inl ha)))

theorem execPop_ok (i : RegIx) (hp : s.pc.toNat + 2 ≤ 255)
    (hs : (s.setReg i (s.memRead s.sp)).sp.toNat + 1 ≤ 255) :
    execPop (regByte i) s = .next (((s.setReg i (s.memRead s.sp)).setReg spIndex
      ((s.setReg i (s.memRead s.sp)).sp + 1)).setPc (s.pc + 2)) := by
  rw [execPop, withR_regByte i (by omega), sequential_ok (m := .pop) hp]
  simp only [popSp_ok hs]
  rfl

theorem execPop_badSp (i : RegIx) (h : 255 < (s.setReg i (s.memRead s.sp)).sp.toNat + 1) :
    execPop (regByte i) s = raise .outOfRange (s.opcode .pop) s := by
  by_cases hop : 255 < s.pc.toNat + 1
  · exact withR_bad (.inl hop)
  · rw [execPop, withR_regByte i (by omega)]
    by_cases hp : s.pc.toNat + 2 ≤ 255
    · rw [sequential_ok (m := .pop) hp]
      simp only [popSp_bad h]
    · exact sequential_bad (m := .pop) (by show 255 < s.pc.toNat + 2; omega)

theorem execPop_bad (h : 255 < s.pc.toNat + 2 ∨ 7 < a.toNat) :
    execPop a s = raise .outOfRange (s.opcode .pop) s := by
  by_cases hop : 255 < s.pc.toNat + 1 ∨ 7 < a.toNat
  · exact withR_bad hop
  · obtain ⟨i, rfl⟩ := (regByte_or_bad a).resolve_right (by omega)
    rw [execPop, withR_regByte i (by omega)]
    exact sequential_bad (m := .pop) (by show 255 < s.pc.toNat + 2; omega)

theorem answers_pop (a : Byte) : Answers (.pop a) s := by
  rcases regByte_or_bad a with ⟨i, rfl⟩ | ha
  · by_cases hp : s.pc.toNat + 2 ≤ 255
    · by_cases hs : (s.setReg i (s.memRead s.sp)).sp.toNat + 1 ≤ 255
      · exact .inr ⟨_, ⟨i, rfl, hp, hs, rfl⟩, execPop_ok i hp hs⟩
      · exact answers_outOfRange (by simp [Instr.mnemonic, routingOf]) (execPop_badSp i (by omega))
    · exact answers_outOfRange (by simp [Instr.mnemonic, routingOf]) (execPop_bad (.inl (by omega)))
  · exact answers_outOfRange (by simp [Instr.mnemonic, routingOf]) (execPop_bad (.inr ha))

theorem execRet_ok (h : s.sp.toNat + 1 ≤ 255) :
    execRet s = .next ((s.setReg spIndex (s.sp + 1)).setPc (s.memRead s.sp)) := by
  simp only [execRet, popSp_ok h]

theorem execRet_bad (h : 255 < s.sp.toNat + 1) : execRet s = raise .outOfRange (s.opcode .ret) s := by
  simp only [execRet, popSp_bad h]

theorem answers_ret : Answers .ret s := by
  by_cases h : s.sp.toNat + 1 ≤ 255
  · exact .inr ⟨_, ⟨h, rfl⟩, execRet_ok h⟩
  · exact answers_outOfRange (by simp [Instr.mnemonic, routingOf]) (execRet_bad (by omega))

theorem answers_cmp (a b : Byte) : Answers (.cmp a b) s := by
  rcases withRR_cases (m := .cmp) (a := a) (b := b) (s := s)
      (fun i j => sequential .cmp s fun npc => .next ((s.setFlags (compareFlags (s.reg i) (s.reg j))).setPc npc))
    with h | ⟨i, j, rfl, rfl, -, h⟩
  · exact answers_outOfRange (by simp [Instr.mnemonic, routingOf]) h
  · rcases sequential_cases (m := .cmp) (s := s)
        (fun npc => .next ((s.setFlags (compareFlags (s.reg i) (s.reg j))).setPc npc)) with h' | ⟨hp, h'⟩
    · exact answers_outOfRange (by simp [Instr.mnemonic, routingOf]) (h.trans h')
    · exact .inr ⟨_, ⟨i, j, rfl, rfl, hp, rfl⟩, h.trans h'⟩

theorem answers_jmp (a : Byte) : Answers (.jmp a) s := by
  rcases withR_cases (m := .jmp) (a := a) (s := s) (fun i => .next (s.setPc (s.reg i))) with h | ⟨i, rfl, hp, h⟩
  · exact answers_outOfRange (by simp [Instr.mnemonic, routingOf]) h
  · exact .inr ⟨_, ⟨i, rfl, hp, rfl⟩, h⟩

theorem answers_jeq (a : Byte) : Answers (.jeq a) s := by
  rcases branchIf_cases (m := .jeq) (a := a) (s := s) rfl s.fl.E with h | ⟨i, rfl, hp, h2, h⟩
  · exact answers_outOfRange (by simp [Instr.mnemonic, routingOf]) h
  · exact .inr ⟨_, ⟨i, rfl, hp, h2, rfl⟩, h⟩

theorem answers_jne (a : Byte) : Answers (.jne a) s := by
  rcases branchIf_cases (m := .jne) (a := a) (s := s) rfl (!s.fl.E) with h | ⟨i, rfl, hp, h2, h⟩
  · exact answers_outOfRange (by simp [Instr.mnemonic, routingOf]) h
  · refine .inr ⟨_, ⟨i, rfl, hp, fun e => h2 (by simp [e]), rfl⟩, h.trans ?_⟩
    cases s.fl.E <;> rfl

theorem answers_add (a b : Byte) : Answers (.add a b) s := by
  rcases aluInstr_cases (m := .add) (f := aluAdd) (a := a) (b := b) (s := s) rfl with h | ⟨i, j, rfl, rfl, hp, h⟩
  · exact answers_outOfRange (by simp [Instr.mnemonic, routingOf]) h
  · exact .inr ⟨_, ⟨i, j, rfl, rfl, hp, rfl⟩, h⟩

theorem answers_mul (a b : Byte) : Answers (.mul a b) s := by
  rcases aluInstr_cases (m := .mul) (f := aluMul) (a := a) (b := b) (s := s) rfl with h | ⟨i, j, rfl, rfl, hp, h⟩
  · exact answers_outOfRange (by simp [Instr.mnemonic, routingOf]) h
  · exact .inr ⟨_, ⟨i, j, rfl, rfl, hp, rfl⟩, h⟩

/-- The four optional ALU instructions, in one lemma. -/
theorem aluExtInstr_cases {f : Byte → Byte → Byte} (hm : widthOf m = 3) :
    (s.cfg.aluExt = false ∧ aluExtInstr m f a b s = raise .unsupportedOperation (s.opcode m) s) ∨
    (s.cfg.aluExt = true ∧ aluExtInstr m f a b s = raise .outOfRange (s.opcode m) s) ∨
      ∃ i j, a = regByte i ∧ b = regByte j ∧ s.pc.toNat + 3 ≤ 255 ∧ s.cfg.aluExt = true ∧
        aluExtInstr m f a b s = .next ((s.setReg i (f (s.reg i) (s.reg j))).setPc (s.pc + 3)) := by
  cases he : s.cfg.aluExt with
  | false => exact .inl ⟨rfl, aluExtInstr_off he⟩
  | true =>
    refine .inr ?_
    rw [aluExtInstr_on he]
    rcases aluInstr_cases (f := f) (a := a) (b := b) (s := s) hm with h | ⟨i, j, rfl, rfl, hp, h⟩
    · exact .inl ⟨rfl, h⟩
    · exact .inr ⟨i, j, rfl, rfl, hp, rfl, h⟩

theorem answers_sub (a b : Byte) : Answers (.sub a b) s := by
  rcases aluExtInstr_cases (m := .sub) (f := aluSub) (a := a) (b := b) (s := s) rfl
    with ⟨he, h⟩ | ⟨he, h⟩ | ⟨i, j, rfl, rfl, hp, he, h⟩
  · exact .inl ⟨_, .inr ⟨rfl, rfl, he⟩, h⟩
  · exact .inl ⟨_, .inl ⟨rfl, fun _ => he⟩, h⟩
  · exact .inr ⟨_, ⟨i, j, rfl, rfl, hp, he, rfl⟩, h⟩

theorem answers_and (a b : Byte) : Answers (.and a b) s := by
  rcases aluExtInstr_cases (m := .and) (f := aluAnd) (a := a) (b := b) (s := s) rfl
    with ⟨he, h⟩ | ⟨he, h⟩ | ⟨i, j, rfl, rfl, hp, he, h⟩
  · exact .inl ⟨_, .inr ⟨rfl, rfl, he⟩, h⟩
  · exact .inl ⟨_, .inl ⟨rfl, fun _ => he⟩, h⟩
  · exact .inr ⟨_, ⟨i, j, rfl, rfl, hp, he, rfl⟩, h⟩

theorem answers_or (a b : Byte) : Answers (.or a b) s := by
  rcases aluExtInstr_cases (m := .or) (f := aluOr) (a := a) (b := b) (s := s) rfl
    with ⟨he, h⟩ | ⟨he, h⟩ | ⟨i, j, rfl, rfl, hp, he, h⟩
  · exact .inl ⟨_, .inr ⟨rfl, rfl, he⟩, h⟩
  · exact .inl ⟨_, .inl ⟨rfl, fun _ => he⟩, h⟩
  · exact .inr ⟨_, ⟨i, j, rfl, rfl, hp, he, rfl⟩, h⟩

theorem answers_xor (a b : Byte) : Answers (.xor a b) s := by
  rcases aluExtInstr_cases (m := .xor) (f := aluXor) (a := a) (b := b) (s := s) rfl
    with ⟨he, h⟩ | ⟨he, h⟩ | ⟨i, j, rfl, rfl, hp, he, h⟩
  · exact .inl ⟨_, .inr ⟨rfl, rfl, he⟩, h⟩
  · exact .inl ⟨_, .inl ⟨rfl, fun _ => he⟩, h⟩
  · exact .inr ⟨_, ⟨i, j, rfl, rfl, hp, he, rfl⟩, h⟩

/-- Every instruction, in every state. -/
theorem exec_answers (ins : Instr) (s : State) : Answers ins s := by
  cases ins with
  | hlt => exact answers_hlt
  | ldi a imm => exact answers_ldi a imm
  | prn a => exact answers_prn a
  | push a => exact answers_push a
  | pop a => exact answers_pop a
  | call a => exact answers_call a
  | ret => exact answers_ret
  | cmp a b => exact answers_cmp a b
  | jmp a => exact answers_jmp a
  | jeq a => exact answers_jeq a
  | jne a => exact answers_jne a
  | add a b => exact answers_add a b
  | mul a b => exact answers_mul a b
  | sub a b => exact answers_sub a b
  | and a b => exact answers_and a b
  | or a b => exact answers_or a b
  | xor a b => exact answers_xor a b

/-- The inversion of `exec`: a next state is a failure of the instruction's own, or its effect. -/
theorem exec_cases {ins : Instr} (h : exec ins s = .next t) :
    (∃ k, OwnFailure ins s k ∧ t = s.withFailure k (s.opcode ins.mnemonic)) ∨ Effect ins s t := by
  rcases exec_answers ins s with ⟨k, hk, e⟩ | ⟨u, hu, e⟩
  · rw [h, raise, Host.Outcome.next.injEq] at e
    exact .inl ⟨k, hk, e⟩
  · rw [h, Host.Outcome.next.injEq] at e
    exact .inr (e ▸ hu)

/-- The converse: where an instruction's checks hold, `exec` answers its effect. -/
theorem exec_of_effect {ins : Instr} (h : Effect ins s t) : exec ins s = .next t := by
  cases ins with
  | hlt => cases h; rfl
  | ldi a imm =>
    obtain ⟨i, rfl, hp, rfl⟩ := h
    exact (withRI_regByte i (by omega)).trans (sequential_ok (m := .ldi) hp)
  | prn a =>
    obtain ⟨i, rfl, hp, rfl⟩ := h
    exact (withR_regByte i (by omega)).trans (sequential_ok (m := .prn) hp)
  | push a => obtain ⟨i, rfl, hp, hs, rfl⟩ := h; exact execPush_ok i hp hs
  | pop a => obtain ⟨i, rfl, hp, hs, rfl⟩ := h; exact execPop_ok i hp hs
  | call a => obtain ⟨i, rfl, hp, hs, rfl⟩ := h; exact execCall_ok i hp hs
  | ret => obtain ⟨hs, rfl⟩ := h; exact execRet_ok hs
  | cmp a b =>
    obtain ⟨i, j, rfl, rfl, hp, rfl⟩ := h
    exact (withRR_regByte i j (by omega)).trans (sequential_ok (m := .cmp) hp)
  | jmp a => obtain ⟨i, rfl, hp, rfl⟩ := h; exact withR_regByte i hp
  | jeq a =>
    obtain ⟨i, rfl, hp, h2, rfl⟩ := h
    show branchIf .jeq s.fl.E (regByte i) s = _
    cases hE : s.fl.E with
    | true => exact branchIf_taken i hp
    | false => exact branchIf_not_taken rfl i (h2 hE)
  | jne a =>
    obtain ⟨i, rfl, hp, h2, rfl⟩ := h
    show branchIf .jne (!s.fl.E) (regByte i) s = _
    cases hE : s.fl.E with
    | true => exact branchIf_not_taken rfl i (h2 hE)
    | false => exact branchIf_taken i hp
  | add a b => obtain ⟨i, j, rfl, rfl, hp, rfl⟩ := h; exact aluInstr_ok rfl i j hp
  | mul a b => obtain ⟨i, j, rfl, rfl, hp, rfl⟩ := h; exact aluInstr_ok rfl i j hp
  | sub a b => obtain ⟨i, j, rfl, rfl, hp, he, rfl⟩ := h; exact (aluExtInstr_on he).trans (aluInstr_ok rfl i j hp)
  | and a b => obtain ⟨i, j, rfl, rfl, hp, he, rfl⟩ := h; exact (aluExtInstr_on he).trans (aluInstr_ok rfl i j hp)
  | or a b => obtain ⟨i, j, rfl, rfl, hp, he, rfl⟩ := h; exact (aluExtInstr_on he).trans (aluInstr_ok rfl i j hp)
  | xor a b => obtain ⟨i, j, rfl, rfl, hp, he, rfl⟩ := h; exact (aluExtInstr_on he).trans (aluInstr_ok rfl i j hp)

/-- An instruction has at most one failure of its own, and the configuration alone decides which. -/
theorem ownFailure_unique {ins : Instr} {k k' : FailureKind} (hc : t.cfg = s.cfg) (h : OwnFailure ins s k)
    (h' : OwnFailure ins t k') : k = k' := by
  unfold OwnFailure at h h'
  rw [hc] at h'
  rcases h with ⟨rfl, h1⟩ | ⟨rfl, h1, h2⟩ <;> rcases h' with ⟨rfl, h1'⟩ | ⟨rfl, h1', h2'⟩ <;> simp_all

end Sys2Proof.Machine
end

