-- ==== Sys2Proof/Laws/PerInstr.lean ====
section
/-! SUPPORT. Statements made per instruction. -/

namespace Sys2Proof.Laws.EncodingWidth

open Sys2Proof

/-- The encoding of an instruction has its row's width and starts with its row's opcode byte, under every `OPCODE`
(R60, R61). -/
def Statement (i : Instr) : Prop :=
  ∀ T : OpcodeMap, (encode T i).length = widthOf i.mnemonic ∧ (encode T i).head? = some (opcodeOf T i.mnemonic)

theorem hlt : Statement .hlt := fun _ => ⟨rfl, rfl⟩
theorem ldi (a imm : Byte) : Statement (.ldi a imm) := fun _ => ⟨rfl, rfl⟩
theorem prn (a : Byte) : Statement (.prn a) := fun _ => ⟨rfl, rfl⟩
theorem push (a : Byte) : Statement (.push a) := fun _ => ⟨rfl, rfl⟩
theorem pop (a : Byte) : Statement (.pop a) := fun _ => ⟨rfl, rfl⟩
theorem call (a : Byte) : Statement (.call a) := fun _ => ⟨rfl, rfl⟩
theorem ret : Statement .ret := fun _ => ⟨rfl, rfl⟩
theorem cmp (a b : Byte) : Statement (.cmp a b) := fun _ => ⟨rfl, rfl⟩
theorem jmp (a : Byte) : Statement (.jmp a) := fun _ => ⟨rfl, rfl⟩
theorem jeq (a : Byte) : Statement (.jeq a) := fun _ => ⟨rfl, rfl⟩
theorem jne (a : Byte) : Statement (.jne a) := fun _ => ⟨rfl, rfl⟩
theorem add (a b : Byte) : Statement (.add a b) := fun _ => ⟨rfl, rfl⟩
theorem mul (a b : Byte) : Statement (.mul a b) := fun _ => ⟨rfl, rfl⟩
theorem sub (a b : Byte) : Statement (.sub a b) := fun _ => ⟨rfl, rfl⟩
theorem and (a b : Byte) : Statement (.and a b) := fun _ => ⟨rfl, rfl⟩
theorem or (a b : Byte) : Statement (.or a b) := fun _ => ⟨rfl, rfl⟩
theorem xor (a b : Byte) : Statement (.xor a b) := fun _ => ⟨rfl, rfl⟩

end Sys2Proof.Laws.EncodingWidth
end

