-- ==== Sys2Proof/Laws/Step.lean ====
section
/-! SUPPORT. What the fetch can answer and what a step can do; proofs of the whole-machine rules cite `step_cases`. -/

namespace Sys2Proof.Machine

open Sys2Proof

variable {s t : State}

/-! ### Bytes at an address -/

theorem Memory.length_bytesAt_le (m : Memory) (a n : Nat) : (Memory.bytesAt m a n).length ≤ n := by
  induction n generalizing a with
  | zero => exact Nat.le_refl 0
  | succ n ih =>
    unfold Memory.bytesAt
    split
    · exact Nat.succ_le_succ (ih (a + 1))
    · exact Nat.zero_le _

/-- The bytes at `pc` start with the opcode byte, which always exists (R82). -/
theorem bytesAt_pc (s : State) (n : Nat) :
    Memory.bytesAt s.mem s.pc.toNat (n + 1) = s.memRead s.pc :: Memory.bytesAt s.mem (s.pc.toNat + 1) n := by
  have hpc : s.pc.toNat ≤ lastAddress := Nat.le_of_lt_succ s.pc.isLt
  rw [Memory.bytesAt, if_pos hpc]
  rfl

/-- The byte at `pc` whose row is known is that row's opcode byte under the machine's `OPCODE`. -/
theorem memRead_pc_of_mnemonic {m : Mnemonic} (h : mnemonicOf s.cfg.opcodes (s.memRead s.pc) = some m) :
    s.memRead s.pc = s.opcode m := (opcodeOf_of_mnemonicOf h).symm

/-- The bytes of the instruction at `pc`, its row known. -/
theorem instrBytes_of_mnemonic {m : Mnemonic} (h : mnemonicOf s.cfg.opcodes (s.memRead s.pc) = some m) :
    instrBytes s = s.opcode m :: Memory.bytesAt s.mem (s.pc.toNat + 1) (widthOf m - 1) := by
  have hw : widthOf m = widthOf m - 1 + 1 := by cases m <;> rfl
  have hf : fetchWidth s.cfg.opcodes (s.memRead s.pc) = widthOf m - 1 + 1 := by simp only [fetchWidth, h]; exact hw
  rw [instrBytes, hf, bytesAt_pc, memRead_pc_of_mnemonic h]

/-! ### The fetch (R82 to R84) -/

/-- A fetch that answers an instruction: its bytes stand at `pc`, its class may execute, and it is the row that its opcode
byte looks up. -/
theorem fetchDecode_ok {ins : Instr} (h : fetchDecode s = .ok ins) :
    s.memRead s.pc = s.opcode ins.mnemonic ∧
      Memory.bytesAt s.mem (s.pc.toNat + 1) (widthOf ins.mnemonic - 1) = ins.operandBytes ∧
      (routingOf ins.mnemonic = .aluExt → s.cfg.aluExt = true) ∧
      mnemonicOf s.cfg.opcodes (s.memRead s.pc) = some ins.mnemonic := by
  cases hm : mnemonicOf s.cfg.opcodes (s.memRead s.pc) with
  | none => simp [fetchDecode, classOf, hm] at h
  | some m =>
    have hdec : decode s.cfg.opcodes (instrBytes s) =
        match withOperandBytes m (Memory.bytesAt s.mem (s.pc.toNat + 1) (widthOf m - 1)) with
        | some r => .ok r
        | none => .error (.operandMissing m) := by
      rw [instrBytes_of_mnemonic hm]
      exact decode_cons (memRead_pc_of_mnemonic hm ▸ hm) _
    have hcls : classOf s.cfg (s.memRead s.pc) ≠ .aluUnsupported := by
      intro e; simp [fetchDecode, e] at h
    have hval : ∃ r, withOperandBytes m (Memory.bytesAt s.mem (s.pc.toNat + 1) (widthOf m - 1)) = some (ins, r) := by
      cases hw : withOperandBytes m (Memory.bytesAt s.mem (s.pc.toNat + 1) (widthOf m - 1)) with
      | none =>
        rw [hw] at hdec
        unfold fetchDecode at h
        split at h <;> simp [hdec] at h
      | some r =>
        rw [hw] at hdec
        unfold fetchDecode at h
        split at h <;> simp [hdec] at h <;> exact ⟨r.2, by rw [← h]⟩
    obtain ⟨r, hr⟩ := hval
    obtain ⟨rfl, hbytes⟩ := withOperandBytes_eq_some hr
    have hlen := Memory.length_bytesAt_le s.mem (s.pc.toNat + 1) (widthOf ins.mnemonic - 1)
    have hops := length_operandBytes ins
    rw [hbytes, List.length_append] at hlen
    have : r = [] := List.eq_nil_of_length_eq_zero (by omega)
    subst this
    refine ⟨memRead_pc_of_mnemonic hm, by simpa using hbytes, fun hext => ?_, rfl⟩
    cases he : s.cfg.aluExt with
    | true => rfl
    | false => exact absurd (by simp only [classOf, hm, hext, he]; rfl) hcls

/-- A fetch that fails: the kind is the one the opcode byte's class gives (R83, R170, R173). -/
theorem fetchDecode_error {k : FailureKind} (h : fetchDecode s = .error k) :
    (k = .unknownOpcode ↔ classOf s.cfg (s.memRead s.pc) = .unknown) ∧
      (k = .unsupportedOperation ↔ classOf s.cfg (s.memRead s.pc) = .aluUnsupported) := by
  unfold fetchDecode at h
  split at h
  · next hc => cases h; simp [hc]
  · next hc => cases h; simp [hc]
  all_goals
    next hc =>
      split at h
      · cases h
      · cases h; simp [hc]

/-! ### A step -/

/-- The inversion of `step`: it starts in Running, and the next state is a failure of the fetch or what `exec` of the
fetched instruction answers. -/
theorem step_cases (h : step s = .next t) :
    s.run = .running ∧
      ((∃ k, fetchDecode s = .error k ∧ t = s.withFailure k (s.memRead s.pc)) ∨
        ∃ ins, fetchDecode s = .ok ins ∧ exec ins s = .next t) := by
  unfold step at h
  split at h
  · cases h
  · cases h
  · next hr =>
    refine ⟨hr, ?_⟩
    split at h
    · next ins hf => exact .inr ⟨ins, hf, h⟩
    · next k hf =>
      rw [raise, Host.Outcome.next.injEq] at h
      exact .inl ⟨k, hf, h.symm⟩

theorem step_running_ok {ins : Instr} (hr : s.run = .running) (hf : fetchDecode s = .ok ins) :
    step s = exec ins s := by
  simp only [step, hr, hf]

theorem step_running_error {k : FailureKind} (hr : s.run = .running) (hf : fetchDecode s = .error k) :
    step s = raise k (s.memRead s.pc) s := by
  simp only [step, hr, hf]

end Sys2Proof.Machine
end

