-- ==== Sys2Proof/Tests/Slice0.lean ====
section
/-! SUPPORT. The model's own tests: WellFormed refuses ill-formed terms, written-out words decode, one or two steps per
instruction (expected results from spec/95_test_vectors.md, whose row each docstring names), and for each statement with
hypotheses a state that meets them. -/

namespace Sys2Proof.Tests

open Sys2Proof Sys2Proof.Machine

/-- The state of an outcome, when there is one. -/
def stateAfter : Result → Option State
  | .next t => some t
  | .fault _ => none
  | .refused _ => none

/-- A Running state with `bytes` at `pc` and the given registers. -/
def machineAt (pc : Byte) (bytes : List Byte) (x : Vector Byte 8) : State :=
  { mem := Memory.storeBytes [] pc.toNat bytes, x := x, fl := ⟨false, false, false⟩, pc := pc, run := .running,
    out := [], cfg := ⟨false, defaultOpcodes⟩ }

/-- The same under `ALU_EXT`. -/
def extended (s : State) : State := { s with cfg := ⟨true, s.cfg.opcodes⟩ }

/-- A register file with R0, R1, R2, R3 and SP given. -/
def regs (r0 r1 r2 r3 sp : Byte) : Vector Byte 8 := #v[r0, r1, r2, r3, 0, 0, 0, sp]

/-! ### WellFormed refuses each ill-formed term -/

theorem test_wellFormed_refuses_ldi_register : Instr.wellFormed (.ldi 8 0) = false := by decide
theorem test_wellFormed_refuses_first_register_of_two : Instr.wellFormed (.add 8 0) = false := by decide
theorem test_wellFormed_refuses_second_register_of_two : Instr.wellFormed (.cmp 0 8) = false := by decide
theorem test_wellFormed_refuses_extension_register : Instr.wellFormed (.xor 0 255) = false := by decide
theorem test_wellFormed_refuses_single_register : Instr.wellFormed (.push 8) = false := by decide
theorem test_wellFormed_refuses_jump_register : Instr.wellFormed (.jeq 9) = false := by decide
theorem test_wellFormed_accepts_highest_register_and_any_immediate : Instr.wellFormed (.ldi 7 255) = true := by decide

/-! ### Words written out from R61 and R62 -/

theorem test_decode_hlt : decode defaultOpcodes [0b00000001] = .ok (.hlt, []) := by rfl
theorem test_decode_ldi : decode defaultOpcodes [0b10000010, 0b00000111, 0b11111111] = .ok (.ldi 7 255, []) := by rfl
theorem test_decode_prn : decode defaultOpcodes [0b01000111, 0b00000011] = .ok (.prn 3, []) := by rfl
theorem test_decode_push : decode defaultOpcodes [0b01000101, 0b00000010] = .ok (.push 2, []) := by rfl
theorem test_decode_pop : decode defaultOpcodes [0b01000110, 0b00000001] = .ok (.pop 1, []) := by rfl
theorem test_decode_call : decode defaultOpcodes [0b01010000, 0b00000001] = .ok (.call 1, []) := by rfl
theorem test_decode_ret : decode defaultOpcodes [0b00010001] = .ok (.ret, []) := by rfl
theorem test_decode_cmp : decode defaultOpcodes [0b10100111, 0b00000001, 0b00000010] = .ok (.cmp 1 2, []) := by rfl
theorem test_decode_jmp : decode defaultOpcodes [0b01010100, 0b00000011] = .ok (.jmp 3, []) := by rfl
theorem test_decode_jeq : decode defaultOpcodes [0b01010101, 0b00000010] = .ok (.jeq 2, []) := by rfl
theorem test_decode_jne : decode defaultOpcodes [0b01010110, 0b00000011] = .ok (.jne 3, []) := by rfl
theorem test_decode_add : decode defaultOpcodes [0b10100000, 0b00000111, 0b00000001] = .ok (.add 7 1, []) := by rfl
theorem test_decode_mul : decode defaultOpcodes [0b10100010, 0b00000000, 0b00000001] = .ok (.mul 0 1, []) := by rfl
theorem test_decode_sub : decode defaultOpcodes [0b10100001, 0b00000000, 0b00000001] = .ok (.sub 0 1, []) := by rfl
theorem test_decode_and : decode defaultOpcodes [0b10101000, 0b00000000, 0b00000001] = .ok (.and 0 1, []) := by rfl
theorem test_decode_or : decode defaultOpcodes [0b10101010, 0b00000000, 0b00000001] = .ok (.or 0 1, []) := by rfl
theorem test_decode_xor : decode defaultOpcodes [0b10101011, 0b00000000, 0b00000001] = .ok (.xor 0 1, []) := by rfl
/-- R66: 0x00 is no NOP here. -/
theorem test_decode_refuses_zero : decode defaultOpcodes [0, 1, 2] = .error (.unknownOpcode 0) := by rfl
theorem test_decode_names_missing_operand : decode defaultOpcodes [0xA0, 1] = .error (.operandMissing .add) := by rfl
/-- The table's numbering: the opcode byte is bits 7..0, operand bytes above `nbits` are 0. -/
theorem test_decodeTableWord_short_word : decodeTableWord 8 0xA0 = some (.add 0 0) := by rfl
theorem test_decodeTableWord_operands : decodeTableWord 24 0x0203A7 = some (.cmp 3 2) := by rfl
/-- R6, U8: `OPCODE` is a parameter. Under one that gives HLT the byte 0x03 a step halts on it, and 0x01 is unknown. -/
theorem test_opcode_is_a_parameter :
    [0x03, 0x01].map (fun b : Byte =>
      (stateAfter (step { machineAt 0 [b] (regs 0 0 0 0 0xF4) with
        cfg := ⟨false, { defaultOpcodes with hlt := 0x03 }⟩ })).map State.run) =
      [some .halted, some (.failed .unknownOpcode 0 0x01)] := by decide
/-- R68's notation, on the instruction of vector A20. -/
theorem test_assembly : Instr.assembly (.add 0 9) = "ADD R0,R9" := by decide

/-! ### One step per instruction -/

/-- E1, S8. -/
theorem test_unknown_opcode : (stateAfter (step (machineAt 0 [0x00] (regs 0 0 0 0 0xF4)))).map State.run =
    some (.failed .unknownOpcode 0 0x00) := by decide
/-- E8: the opcode class is checked before any range. -/
theorem test_unknown_opcode_at_the_last_address :
    (stateAfter (step (machineAt 0xFF [0x00] (regs 0 0 0 0 0xF4)))).map State.run =
      some (.failed .unknownOpcode 0xFF 0x00) := by decide
/-- E10. -/
theorem test_operand_above_memory : (stateAfter (step (machineAt 0xFF [0x47] (regs 0 0 0 0 0xF4)))).map State.run =
    some (.failed .outOfRange 0xFF 0x47) := by decide
/-- R170, D22. -/
theorem test_failure_codes : [FailureKind.unknownOpcode, .unsupportedOperation, .outOfRange].map FailureKind.code =
    [1, 2, 3] := by decide
/-- E7. -/
theorem test_hlt_at_the_last_address : (stateAfter (step (machineAt 0xFF [0x01] (regs 1 2 3 4 0xF4)))).map State.produced =
    some ((machineAt 0xFF [0x01] (regs 1 2 3 4 0xF4)).mem, regs 1 2 3 4 0xF4, ⟨false, false, false⟩, [], .halted) := by
  decide
/-- E12. -/
theorem test_ldi_up_to_the_last_pc : (stateAfter (step (machineAt 0xFC [0x82, 0, 5] (regs 9 0 0 0 0xF4)))).map
    (fun t => (t.x[0], t.pc, t.run)) = some (5, 0xFF, .running) := by decide
/-- E11: the pc never wraps, and the register stays. -/
theorem test_ldi_past_the_last_pc : (stateAfter (step (machineAt 0xFD [0x82, 0, 5] (regs 9 0 0 0 0xF4)))).map
    (fun t => (t.x[0], t.run)) = some (9, .failed .outOfRange 0xFD 0x82) := by decide
/-- L5. -/
theorem test_prn_appends_last : (stateAfter (step { machineAt 0 [0x47, 7] (regs 0 0 0 0 0xF4) with out := [5] })).map
    (fun t => (t.out, t.pc)) = some ([5, 244], 2) := by decide
/-- L6. -/
theorem test_prn_that_fails_emits_nothing : (stateAfter (step (machineAt 0xFE [0x47, 0] (regs 1 0 0 0 0xF4)))).map
    (fun t => (t.out, t.run)) = some ([], .failed .outOfRange 0xFE 0x47) := by decide
/-- K2. -/
theorem test_push_r7_stores_decremented_sp : (stateAfter (step (machineAt 0 [0x45, 7] (regs 0 0 0 0 0xF4)))).map
    (fun t => (t.memRead 0xF3, t.x[7], t.pc)) = some (0xF3, 0xF3, 2) := by decide
/-- K4, P7: no byte is written at address 255. -/
theorem test_push_at_sp_zero : (stateAfter (step (machineAt 3 [0x45, 0] (regs 0xAB 0 0 0 0)))).map
    (fun t => (t.memRead 0xFF, t.x[7], t.run)) = some (0, 0, .failed .outOfRange 3 0x45) := by decide
/-- K6: mem[F3] = 10, so SP ends as 11. -/
theorem test_pop_r7_increments_the_popped_byte :
    (stateAfter (step ((machineAt 0 [0x46, 7] (regs 0 0 0 0 0xF3)).memWrite 0xF3 0x10))).map
      (fun t => (t.x[7], t.pc)) = some (0x11, 2) := by decide
/-- K8. -/
theorem test_pop_at_sp_255 :
    (stateAfter (step ((machineAt 0 [0x46, 1] (regs 0 9 0 0 0xFF)).memWrite 0xFF 7))).map
      (fun t => (t.x[1], t.run)) = some (9, .failed .outOfRange 0 0x46) := by decide
/-- K10. -/
theorem test_call : (stateAfter (step (machineAt 3 [0x50, 1] (regs 0 8 0 0 0xF4)))).map
    (fun t => (t.memRead 0xF3, t.x[7], t.pc)) = some (5, 0xF3, 8) := by decide
/-- K11. -/
theorem test_call_r7_jumps_to_decremented_sp : (stateAfter (step (machineAt 3 [0x50, 7] (regs 0 0 0 0 0xF4)))).map
    (fun t => (t.memRead 0xF3, t.x[7], t.pc)) = some (5, 0xF3, 0xF3) := by decide
/-- K14. -/
theorem test_ret : (stateAfter (step ((machineAt 9 [0x11] (regs 0 0 0 0 0xF3)).memWrite 0xF3 5))).map
    (fun t => (t.x[7], t.pc)) = some (0xF4, 5) := by decide
/-- K15. -/
theorem test_ret_at_sp_255 : (stateAfter (step (machineAt 9 [0x11] (regs 0 0 0 0 0xFF)))).map State.run =
    some (.failed .outOfRange 9 0x11) := by decide
/-- B4: the comparison is unsigned. -/
theorem test_cmp_is_unsigned : (stateAfter (step (machineAt 0 [0xA7, 0, 1] (regs 0x80 0x7F 0 0 0xF4)))).map
    (fun t => (t.fl.toBits, t.pc)) = some (0b010, 3) := by decide
/-- B6: the prior value is discarded. -/
theorem test_cmp_overwrites :
    (stateAfter (step ((machineAt 0 [0xA7, 0, 0] (regs 0x55 0 0 0 0xF4)).setFlags (Flags.ofBits 0b101)))).map
      (fun t => t.fl.toBits) = some 0b001 := by decide
/-- B15. -/
theorem test_jmp_at_254 : (stateAfter (step (machineAt 0xFE [0x54, 1] (regs 0 2 0 0 0xF4)))).map State.pc = some 2 := by
  decide
/-- B10: only E is read. -/
theorem test_jeq_reads_E_only :
    (stateAfter (step ((machineAt 0x14 [0x55, 2] (regs 0 0 0x0F 0 0xF4)).setFlags (Flags.ofBits 0b011)))).map State.pc =
      some 0x0F := by decide
/-- B14: the fall-through at 254 fails. -/
theorem test_jeq_falls_through_past_memory :
    (stateAfter (step ((machineAt 0xFE [0x55, 2] (regs 0 0 0 0 0xF4)).setFlags (Flags.ofBits 0b100)))).map State.run =
      some (.failed .outOfRange 0xFE 0x55) := by decide
/-- B11. -/
theorem test_jne_taken :
    (stateAfter (step ((machineAt 0x14 [0x56, 3] (regs 0 0 0 0x0C 0xF4)).setFlags (Flags.ofBits 0b010)))).map State.pc =
      some 0x0C := by decide
/-- B12. -/
theorem test_jne_not_taken :
    (stateAfter (step ((machineAt 0x14 [0x56, 3] (regs 0 0 0 0x0C 0xF4)).setFlags (Flags.ofBits 0b001)))).map State.pc =
      some 0x16 := by decide
/-- A1, S1. -/
theorem test_add_wraps : (stateAfter (step (machineAt 0 [0xA0, 0, 1] (regs 0xFF 1 0 0 0xF4)))).map
    (fun t => (t.x[0], t.x[1], t.pc)) = some (0, 1, 3) := by decide
/-- A20. -/
theorem test_add_bad_second_register : (stateAfter (step (machineAt 0 [0xA0, 0, 9] (regs 1 0 0 0 0xF4)))).map State.run =
    some (.failed .outOfRange 0 0xA0) := by decide
/-- A7, S2. -/
theorem test_mul_low_byte : (stateAfter (step (machineAt 0 [0xA2, 0, 1] (regs 0xFF 2 0 0 0xF4)))).map
    (fun t => (t.x[0], t.pc)) = some (0xFE, 3) := by decide
/-- A9: the source is also the destination. -/
theorem test_mul_square : (stateAfter (step (machineAt 0 [0xA2, 0, 0] (regs 0x10 0 0 0 0xF4)))).map
    (fun t => t.x[0]) = some 0 := by decide
/-- A13. -/
theorem test_sub_borrows : (stateAfter (step (extended (machineAt 0 [0xA1, 0, 1] (regs 3 5 0 0 0xF4))))).map
    (fun t => (t.x[0], t.pc)) = some (0xFE, 3) := by decide
/-- E9: unsupported before any operand byte is asked for. -/
theorem test_sub_unsupported_at_the_last_address :
    (stateAfter (step (machineAt 0xFF [0xA1] (regs 3 5 0 0 0xF4)))).map State.run =
      some (.failed .unsupportedOperation 0xFF 0xA1) := by decide
/-- A15. -/
theorem test_and : (stateAfter (step (extended (machineAt 0 [0xA8, 0, 1] (regs 0xF0 0x3C 0 0 0xF4))))).map
    (fun t => (t.x[0], t.pc)) = some (0x30, 3) := by decide
/-- A19. -/
theorem test_and_unsupported : (stateAfter (step (machineAt 0 [0xA8, 0, 1] (regs 0xF0 0x3C 0 0 0xF4)))).map
    (fun t => (t.x[0], t.run)) = some (0xF0, .failed .unsupportedOperation 0 0xA8) := by decide
/-- A16. -/
theorem test_or : (stateAfter (step (extended (machineAt 0 [0xAA, 0, 1] (regs 0xF0 0x0F 0 0 0xF4))))).map
    (fun t => (t.x[0], t.pc)) = some (0xFF, 3) := by decide
/-- A17. -/
theorem test_xor : (stateAfter (step (extended (machineAt 0 [0xAB, 0, 1] (regs 0xAA 0xFF 0 0 0xF4))))).map
    (fun t => (t.x[0], t.pc)) = some (0x55, 3) := by decide

/-! ### Witnesses: for each statement with hypotheses, states and operands that meet them, clause by clause, at the
boundary of each range -/

/-- A state for witnesses: registers 5, 3, 8, 0 and SP = F3 with the byte 5 there. -/
def sample : State := (machineAt 0 [] (regs 5 3 8 0 0xF3)).memWrite 0xF3 5

/-- `sample` with another pc. -/
def sampleAt (pc : Byte) : State := sample.setPc pc

/-- `sample` with another SP. -/
def sampleSp (sp : Byte) : State := sample.setReg 7 sp

theorem witness_CanonicalMemoriesReadingAlikeAreEqual :
    Memory.wf sample.mem ∧ ∀ a : Byte, Memory.read sample.mem a.toNat = Memory.read sample.mem a.toNat :=
  ⟨by decide, fun _ => rfl⟩

theorem witness_DecodeOfEncodeIsTheInstruction :
    defaultOpcodes.Distinct ∧ ({ defaultOpcodes with hlt := 0x03 } : OpcodeMap).Distinct := by decide

theorem witness_DispatchClassesAndWidths : (⟨true, defaultOpcodes⟩ : Config).opcodes.Distinct := by decide

theorem witness_EncodeOfDecodeIsTheBytes : decode defaultOpcodes [0x82, 0, 8, 1] = .ok (.ldi 0 8, [1]) := by rfl

/-- The last pc of an instruction of three bytes that goes on, the first that fails, and a bad index. -/
theorem witness_AddResultAndFailures : (sampleAt 252).pc.toNat + 3 ≤ 255 ∧ 255 < (sampleAt 253).pc.toNat + 3 ∧
    7 < (8 : Byte).toNat := by decide

theorem witness_MulResultAndFailures : (sampleAt 252).pc.toNat + 3 ≤ 255 ∧ 255 < (sampleAt 253).pc.toNat + 3 ∧
    7 < (8 : Byte).toNat := by decide

theorem witness_SubResultAndFailures :
    (extended (sampleAt 252)).cfg.aluExt = true ∧ (extended (sampleAt 252)).pc.toNat + 3 ≤ 255 ∧
    (extended (sampleAt 253)).cfg.aluExt = true ∧ 255 < (extended (sampleAt 253)).pc.toNat + 3 ∧
    7 < (8 : Byte).toNat ∧ sample.cfg.aluExt = false := by decide

theorem witness_AndResultAndFailures :
    (extended (sampleAt 252)).cfg.aluExt = true ∧ (extended (sampleAt 252)).pc.toNat + 3 ≤ 255 ∧
    (extended (sampleAt 253)).cfg.aluExt = true ∧ 255 < (extended (sampleAt 253)).pc.toNat + 3 ∧
    7 < (8 : Byte).toNat ∧ sample.cfg.aluExt = false := by decide

theorem witness_OrResultAndFailures :
    (extended (sampleAt 252)).cfg.aluExt = true ∧ (extended (sampleAt 252)).pc.toNat + 3 ≤ 255 ∧
    (extended (sampleAt 253)).cfg.aluExt = true ∧ 255 < (extended (sampleAt 253)).pc.toNat + 3 ∧
    7 < (8 : Byte).toNat ∧ sample.cfg.aluExt = false := by decide

theorem witness_XorResultAndFailures :
    (extended (sampleAt 252)).cfg.aluExt = true ∧ (extended (sampleAt 252)).pc.toNat + 3 ≤ 255 ∧
    (extended (sampleAt 253)).cfg.aluExt = true ∧ 255 < (extended (sampleAt 253)).pc.toNat + 3 ∧
    7 < (8 : Byte).toNat ∧ sample.cfg.aluExt = false := by decide

theorem witness_LdiResultAndFailures : (sampleAt 252).pc.toNat + 3 ≤ 255 ∧ 255 < (sampleAt 253).pc.toNat + 3 ∧
    7 < (8 : Byte).toNat := by decide

theorem witness_PrnResultAndFailures : (sampleAt 253).pc.toNat + 2 ≤ 255 ∧ 255 < (sampleAt 254).pc.toNat + 2 ∧
    7 < (8 : Byte).toNat := by decide

theorem witness_PushResultAndFailures :
    ((sampleSp 1).setPc 253).pc.toNat + 2 ≤ 255 ∧ 1 ≤ ((sampleSp 1).setPc 253).x[7].toNat ∧
    255 < (sampleAt 254).pc.toNat + 2 ∧ 7 < (8 : Byte).toNat ∧ (sampleSp 0).x[7].toNat = 0 := by decide

theorem witness_PopResultAndFailures :
    (1 : RegIx) ≠ 7 ∧ ((sampleSp 254).setPc 253).pc.toNat + 2 ≤ 255 ∧ ((sampleSp 254).setPc 253).x[7].toNat + 1 ≤ 255 ∧
    (sample.pc.toNat + 2 ≤ 255 ∧ (sample.memRead sample.x[7]).toNat + 1 ≤ 255) ∧
    255 < (sampleAt 254).pc.toNat + 2 ∧ 7 < (8 : Byte).toNat ∧
    ((6 : Byte).toNat ≠ 7 ∧ (sampleSp 255).x[7].toNat = 255) ∧
    ((7 : Byte).toNat = 7 ∧ ((sample.memWrite 0xF3 255).memRead sample.x[7]).toNat = 255) := by decide

theorem witness_CallResultAndFailures :
    ((sampleSp 1).setPc 253).pc.toNat + 2 ≤ 255 ∧ 1 ≤ ((sampleSp 1).setPc 253).x[7].toNat ∧
    255 < (sampleAt 254).pc.toNat + 2 ∧ 7 < (8 : Byte).toNat ∧ (sampleSp 0).x[7].toNat = 0 := by decide

theorem witness_RetResultAndFailures :
    (sampleSp 254).x[7].toNat + 1 ≤ 255 ∧ (sampleSp 255).x[7].toNat = 255 := by decide

theorem witness_PushThenPopMovesTheValue :
    (sampleAt 251).run = .running ∧ (2 : RegIx) ≠ 7 ∧ (5 : RegIx) ≠ 7 ∧ (sampleAt 251).pc.toNat + 4 ≤ 255 ∧
    1 ≤ (sampleAt 251).x[7].toNat := by decide

/-- A CALL at address 3 and the very state it leaves, which has SP at its slot and the slot unchanged. -/
theorem witness_ReturnGoesBackAfterItsCall :
    (1 : RegIx) ≠ 7 ∧ (sampleAt 3).pc.toNat ≤ 253 ∧ 1 ≤ (sampleAt 3).x[7].toNat ∧
    ∃ t, exec (.call (regByte 1)) (sampleAt 3) = .next t ∧ t.x[7] = (sampleAt 3).x[7] - 1 :=
  ⟨by decide, by decide, by decide, _, rfl, by decide⟩

theorem witness_NestedCallsAndReturnsBalance :
    sample.run = .running ∧ [(0 : RegIx), 1, 2] ≠ [] ∧ sample.pc.toNat ≤ 253 ∧
    [(0 : RegIx), 1, 2].length ≤ sample.x[7].toNat ∧ (∀ i ∈ [(0 : RegIx), 1, 2], i ≠ 7) ∧
    (∀ i ∈ [(0 : RegIx), 1, 2].dropLast, sample.x[i].toNat ≤ 253) := by decide

theorem witness_CmpResultAndFailures : (sampleAt 252).pc.toNat + 3 ≤ 255 ∧ 255 < (sampleAt 253).pc.toNat + 3 ∧
    7 < (8 : Byte).toNat := by decide

theorem witness_JmpResultAndFailures : (sampleAt 254).pc.toNat + 1 ≤ 255 ∧ 255 < (sampleAt 255).pc.toNat + 1 ∧
    7 < (8 : Byte).toNat := by decide

/-- A taken jump at 254, a fall-through from 253, and the three ways to fail. -/
theorem witness_JeqResultAndFailures :
    (((sampleAt 254).setFlags ⟨true, false, false⟩).fl.E = true ∧ (sampleAt 254).pc.toNat + 1 ≤ 255) ∧
    ((sampleAt 253).fl.E = false ∧ (sampleAt 253).pc.toNat + 2 ≤ 255) ∧
    255 < (sampleAt 255).pc.toNat + 1 ∧ 7 < (8 : Byte).toNat ∧
    ((sampleAt 254).fl.E = false ∧ 255 < (sampleAt 254).pc.toNat + 2) := by decide

theorem witness_JneResultAndFailures :
    ((sampleAt 254).fl.E = false ∧ (sampleAt 254).pc.toNat + 1 ≤ 255) ∧
    (((sampleAt 253).setFlags ⟨true, false, false⟩).fl.E = true ∧ (sampleAt 253).pc.toNat + 2 ≤ 255) ∧
    255 < (sampleAt 255).pc.toNat + 1 ∧ 7 < (8 : Byte).toNat ∧
    (((sampleAt 254).setFlags ⟨true, false, false⟩).fl.E = true ∧ 255 < (sampleAt 254).pc.toNat + 2) := by decide

/-- At the last pc that leaves room for both, with equal and with unequal registers. -/
theorem witness_CompareDecidesTheBranchAfterIt :
    (sampleAt 250).run = .running ∧ (sampleAt 250).pc.toNat + 5 ≤ 255 ∧ (sampleAt 250).x[1] = (sampleAt 250).x[1] ∧
    (sampleAt 250).x[0] ≠ (sampleAt 250).x[1] := by decide

theorem witness_TerminalStatesTakeNoStep :
    sample.halt.run = .halted ∧ (sample.withFailure .outOfRange 0x45).run = .failed .outOfRange 0 0x45 := by decide

theorem witness_StepAnswersNextExactlyWhenRunning : sample.run = .running ∧ sample.halt.run ≠ .running := by decide

/-- HLT placed at pc halts. -/
theorem witness_HaltedIsEnteredOnlyByHlt :
    ∃ t, step (machineAt 0 [1] (regs 0 0 0 0 0xF4)) = .next t ∧ t.run = .halted := ⟨_, rfl, rfl⟩

/-- `sample` fetches 0x00. -/
theorem witness_FailingStepChangesOnlyTheRunState :
    ∃ t, step sample = .next t ∧ t.run = .failed .unknownOpcode 0 0 := ⟨_, rfl, rfl⟩

theorem witness_StepRunsTheDecodedInstruction :
    (machineAt 0xFE [0x54, 1] (regs 0 2 0 0 0xF4)).run = .running ∧
    decode defaultOpcodes (Memory.bytesAt (machineAt 0xFE [0x54, 1] (regs 0 2 0 0 0xF4)).mem 0xFE 3) = .ok (.jmp 1, []) :=
  ⟨rfl, rfl⟩

theorem witness_UnknownOpcodeFailsTheRun :
    (sampleAt 255).run = .running ∧ (∀ m, (sampleAt 255).memRead (sampleAt 255).pc ≠ (sampleAt 255).opcode m) ∧
    (sampleAt 255).cfg.opcodes = defaultOpcodes ∧
    (sampleAt 255).memRead (sampleAt 255).pc ∉
      ([0x01, 0x82, 0x47, 0x45, 0x46, 0x50, 0x11, 0xA7, 0x54, 0x55, 0x56, 0xA0, 0xA2, 0xA1, 0xA8, 0xAA, 0xAB] :
        List Byte) :=
  ⟨rfl, fun m => by cases m <;> decide, rfl, by decide⟩

theorem witness_UnsupportedAluOpcodeFailsTheRun :
    let s := machineAt 0xFF [0xA1] (regs 0 0 0 0 0xF4)
    s.run = .running ∧ s.cfg.aluExt = false ∧ Mnemonic.sub ∈ ([.sub, .and, .or, .xor] : List Mnemonic) ∧
    mnemonicOf s.cfg.opcodes (s.memRead s.pc) = some .sub ∧ s.cfg.opcodes = defaultOpcodes ∧
    s.memRead s.pc ∈ ([0xA1, 0xA8, 0xAA, 0xAB] : List Byte) := by decide

/-- A two-byte row at 255, and a three-byte optional ALU row at 254 under `ALU_EXT`. -/
theorem witness_MissingOperandByteFailsTheRun :
    (let s := machineAt 0xFF [0x47] (regs 0 0 0 0 0xF4);
      s.run = .running ∧ mnemonicOf s.cfg.opcodes (s.memRead s.pc) = some .prn ∧ routingOf .prn ≠ .aluExt ∧
        255 < s.pc.toNat + (widthOf .prn - 1)) ∧
    (let s := extended (machineAt 0xFE [0xAB] (regs 0 0 0 0 0xF4));
      s.run = .running ∧ mnemonicOf s.cfg.opcodes (s.memRead s.pc) = some .xor ∧ s.cfg.aluExt = true ∧
        255 < s.pc.toNat + (widthOf .xor - 1)) := by decide

theorem witness_PlacedTableWordRunsNext :
    (sampleAt 253).run = .running ∧ (sampleAt 253).pc.toNat ≤ 253 ∧
    decode (sampleAt 253).cfg.opcodes (tableWordBytes 24 0x010082) = .ok (.ldi 0 1, []) ∧
    (sampleAt 253).cfg.opcodes = defaultOpcodes ∧ decodeTableWord 24 0x010082 = some (.ldi 0 1) :=
  ⟨rfl, by decide, rfl, rfl, rfl⟩

/-- PUSH R0 at `pc` with SP just above the instruction after it, the pushed byte being `v`. -/
def pushesNext (pc v : Byte) : State := machineAt pc [0x45, 0] (regs v 0 0 0 (pc + 3))

/-- The pushed byte is HLT's opcode, the unknown 0x00, the unsupported 0xA1, and, at the highest slot, LDI's opcode with
one operand byte too few; and a CALL R7, which jumps to its slot. -/
theorem witness_PushedByteIsFetchedNext :
    (∀ pv ∈ ([(0, 0x01), (0, 0x00), (0, 0xA1), (0xFC, 0x82)] : List (Byte × Byte)),
      let s := pushesNext pv.1 pv.2
      s.run = .running ∧ s.pc.toNat + 2 ≤ 255 ∧ s.memRead (s.pc + 1) = regByte 0 ∧
        s.x[7].toNat = (s.pc + 2).toNat + 1 ∧ mnemonicOf s.cfg.opcodes (s.memRead s.pc) = some .push ∧
        pv.2 = (if (0 : RegIx) = 7 then s.pc + 2 else s.x[0])) ∧
    (decode defaultOpcodes (0x01 :: Memory.bytesAt (pushesNext 0 0x01).mem 3 2)).toOption = some (.hlt, [0, 0]) ∧
    classOf (pushesNext 0 0x00).cfg 0x00 = .unknown ∧ classOf (pushesNext 0 0xA1).cfg 0xA1 = .aluUnsupported ∧
    classOf (pushesNext 0xFC 0x82).cfg 0x82 ≠ .aluUnsupported ∧
    (decode defaultOpcodes (0x82 :: Memory.bytesAt (pushesNext 0xFC 0x82).mem 255 2)).toOption = none ∧
    (let s := machineAt 0x43 [0x50, 7] (regs 0 0 0 0 0xFF);
      s.run = .running ∧ s.pc.toNat + 2 ≤ 255 ∧ s.memRead (s.pc + 1) = regByte 7 ∧
        s.x[7].toNat = (0xFE : Byte).toNat + 1 ∧ mnemonicOf s.cfg.opcodes (s.memRead s.pc) = some .call ∧
        (0x45 : Byte) = s.pc + 2) :=
  ⟨by
      intro pv h
      simp only [List.mem_cons, List.not_mem_nil, or_false] at h
      rcases h with rfl | rfl | rfl | rfl <;> decide,
    by decide, by decide, by decide, by decide, by decide, by decide⟩

/-- ADD R0,R1 writes R0, so R1 meets the hypothesis. -/
theorem witness_RegistersFrame :
    (∃ t, exec (.add 0 1) sample = .next t) ∧ regByte 1 ≠ (0 : Byte) ∧ (1 : RegIx) ≠ 7 :=
  ⟨⟨_, rfl⟩, by decide, by decide⟩

theorem witness_StoringInstructionsMemoryFrame :
    (∃ t, exec (.push 0) sample = .next t) ∧ pushSlot? sample = some 0xF2 ∧
    (∃ t, exec (.call 0) (sampleSp 0) = .next t) ∧ pushSlot? (sampleSp 0) = none :=
  ⟨⟨_, rfl⟩, by decide, ⟨_, rfl⟩, by decide⟩

theorem witness_OtherInstructionsLeaveMemoryAlone :
    (∀ a, Instr.pop 1 ≠ .push a ∧ Instr.pop 1 ≠ .call a) ∧ ∃ t, exec (.pop 1) sample = .next t :=
  ⟨fun _ => ⟨Instr.noConfusion, Instr.noConfusion⟩, _, rfl⟩

theorem witness_FlagsOutputRunFrame :
    (∀ a b, Instr.jmp 1 ≠ .cmp a b) ∧ (∀ a, Instr.jmp 1 ≠ .prn a) ∧ ∃ t, exec (.jmp 1) sample = .next t :=
  ⟨fun _ _ => Instr.noConfusion, fun _ => Instr.noConfusion, _, rfl⟩

/-- A PUSH that stores a byte, from a state with the invariant. -/
theorem witness_EveryStepKeepsInvariant :
    (machineAt 0 [0x45, 0] (regs 1 0 0 0 3)).Inv ∧ ∃ t, step (machineAt 0 [0x45, 0] (regs 1 0 0 0 3)) = .next t :=
  ⟨⟨by decide, trivial⟩, _, rfl⟩

theorem witness_EveryStepKeepsFlagsOneHot :
    (sample.setFlags ⟨false, true, false⟩).fl.toBits = 2#3 ∧
    ∃ t, step (sample.setFlags ⟨false, true, false⟩) = .next t := ⟨by decide, _, rfl⟩

/-- CMP R0,R1 from FL = 000. -/
theorem witness_FlagsChangeOnlyByCompare :
    ∃ t, step (machineAt 0 [0xA7, 0, 1] (regs 1 2 0 0 0xF4)) = .next t ∧
      t.fl ≠ (machineAt 0 [0xA7, 0, 1] (regs 1 2 0 0 0xF4)).fl := ⟨_, rfl, by decide⟩

theorem witness_OutputGrowsOnlyByPrn :
    ∃ t, step (machineAt 0 [0x47, 0] (regs 72 0 0 0 0xF4)) = .next t ∧ t.out = [72] := ⟨_, rfl, by decide⟩

/-- PUSH R0 with SP = 1 changes the byte at address 0. -/
theorem witness_MemoryChangesOnlyJustBelowSP :
    ∃ t, step (machineAt 4 [0x45, 0] (regs 0xAB 0 0 0 1)) = .next t ∧
      t.memRead 0 ≠ (machineAt 4 [0x45, 0] (regs 0xAB 0 0 0 1)).memRead 0 := ⟨_, rfl, by decide⟩

/-- JEQ from two states that differ in G and L alone. -/
theorem witness_GreaterAndLessAreNeverObserved :
    (Flags.ofBits 0b011).E = (Flags.ofBits 0b101).E ∧ Flags.ofBits 0b011 ≠ Flags.ofBits 0b101 ∧
    ∃ t, step ((machineAt 0x14 [0x55, 2] (regs 0 0 0x0F 0 0xF4)).setFlags (Flags.ofBits 0b101)) = .next t :=
  ⟨by decide, by decide, _, rfl⟩

theorem witness_OutputIsNeverRead :
    ∃ t, step (machineAt 0 [0x47, 0] (regs 72 0 0 0 0xF4)) = .next t := ⟨_, rfl⟩

/-- HLT ends the run after one step of fuel, and has not ended it before. -/
theorem witness_BoundedRunFollowsItsSteps :
    (∃ t, runFuel 1 (machineAt 0 [1] (regs 0 0 0 0 0xF4)) = some t ∧ 1 ≤ 5) ∧
    runFuel 0 (machineAt 0 [1] (regs 0 0 0 0 0xF4)) = none := ⟨⟨_, rfl, by decide⟩, rfl⟩

theorem witness_NoStepChangesTheConfiguration :
    ∃ t, step (extended (machineAt 0 [0xA1, 0, 1] (regs 3 5 0 0 0xF4))) = .next t := ⟨_, rfl⟩

end Sys2Proof.Tests
end

section
/-! PROOFS. ADD, the first of the ALU instructions (41_alu.md). -/

namespace Sys2Proof.Machine

open Sys2Proof

/-! ### The commit and the failure of an instruction, field by field -/

/-- The commit of an instruction that writes one register: that register and the pc change, nothing else (R86, R87). -/
theorem setReg_setPc_eq (s : State) (i : RegIx) (v p : Byte) :
    (s.setReg i v).setPc p = { s with x := s.x.set i.val v i.isLt, pc := p } := rfl

/-- A failure is a next state that differs in its record alone (R171, R172). -/
theorem raise_eq (k : FailureKind) (op : Byte) (s : State) :
    raise k op s = .next { s with run := .failed k s.pc op } := rfl

/-! ### ADD -/

/-- ADD is the shared ALU shape at the sum (R100, R101). -/
theorem exec_add (a b : Byte) (s : State) : exec (.add a b) s = aluInstr .add aluAdd a b s := rfl

/-- Settles O9: `aluInstr_ok` gives the sum where the next pc is an address, `aluInstr_bad` every failure. -/
theorem addResultAndFailures : Obligations.AddResultAndFailures := by
  intro s
  refine ⟨fun i j hpc => ?result, fun a b hbad => ?failure, fun a b => ?encoding⟩
  case result =>
    rw [exec_add, aluInstr_ok rfl i j hpc, setReg_setPc_eq]
    rfl
  case failure => rw [exec_add, aluInstr_bad rfl hbad, raise_eq]
  case encoding => rfl

end Sys2Proof.Machine
end

section
/-! PROOFS. Load-immediate and output: LDI and PRN (42_load_output.md). -/

namespace Sys2Proof.Machine

open Sys2Proof

variable {s : State}

/-! ### When an instruction fails -/

/-- Outside the optional ALU rows an instruction has one failure: with no effect in `s`, it is `OutOfRange` (R85, R87). -/
theorem exec_outOfRange_of_no_effect {ins : Instr} (hrow : routingOf ins.mnemonic ≠ .aluExt)
    (hno : ∀ t, ¬ Effect ins s t) : exec ins s = raise .outOfRange (s.opcode ins.mnemonic) s := by
  rcases exec_answers ins s with ⟨k, hown, hexec⟩ | ⟨t, heffect, -⟩
  · rcases hown with ⟨rfl, -⟩ | ⟨-, hext, -⟩
    · exact hexec
    · exact absurd hext hrow
  · exact absurd heffect (hno t)

/-- LDI checks its next pc and its register field, and nothing else: the immediate may be any byte (R85, R87, R120). -/
theorem no_effect_ldi {a imm : Byte} (hbad : 255 < s.pc.toNat + 3 ∨ 7 < a.toNat) (t : State) :
    ¬ Effect (.ldi a imm) s t := by
  rintro ⟨i, rfl, hpc, -⟩
  have hreg := regByte_le i
  omega

/-- PRN checks its next pc and its register field (R85, R87, R121). -/
theorem no_effect_prn {a : Byte} (hbad : 255 < s.pc.toNat + 2 ∨ 7 < a.toNat) (t : State) :
    ¬ Effect (.prn a) s t := by
  rintro ⟨i, rfl, hpc, -⟩
  have hreg := regByte_le i
  omega

/-! ### The commit of PRN -/

/-- The commit of an instruction that emits a byte: the output channel and the pc change, nothing else (R86, R87). -/
theorem emit_setPc_eq (s : State) (v p : Byte) :
    (s.emit v).setPc p = { s with out := s.out ++ [v], pc := p } := rfl

/-! ### The two instructions -/

/-- Settles O15: where both checks hold LDI has its effect, and where one fails it has none. -/
theorem ldiResultAndFailures : Obligations.LdiResultAndFailures := by
  intro s
  refine ⟨fun i imm hpc => ?result, fun a imm hbad => ?failure, fun a imm => ?encoding⟩
  case result => exact exec_of_effect ⟨i, rfl, hpc, (setReg_setPc_eq s i imm (s.pc + 3)).symm⟩
  case failure =>
    have hrow : routingOf .ldi ≠ .aluExt := by decide
    exact exec_outOfRange_of_no_effect hrow (no_effect_ldi hbad)
  case encoding => rfl

/-- Settles O16: where both checks hold PRN has its effect, and where one fails it has none, so it emits nothing. -/
theorem prnResultAndFailures : Obligations.PrnResultAndFailures := by
  intro s
  refine ⟨fun i hpc => ?result, fun a hbad => ?failure, fun a => ?encoding⟩
  case result => exact exec_of_effect ⟨i, rfl, hpc, (emit_setPc_eq s s.x[i] (s.pc + 2)).symm⟩
  case failure =>
    have hrow : routingOf .prn ≠ .aluExt := by decide
    exact exec_outOfRange_of_no_effect hrow (no_effect_prn hbad)
  case encoding => rfl

end Sys2Proof.Machine
end

section
/-! PROOFS. The branches JMP, JEQ and JNE (44_compare_branch.md). -/

namespace Sys2Proof.Machine

open Sys2Proof

/-! ### The commit of a branch, and when a conditional one fails -/

/-- The commit of a branch: the pc changes, nothing else (R86). -/
theorem setPc_eq (s : State) (p : Byte) : s.setPc p = { s with pc := p } := rfl

/-- A conditional jump checks its register field on either path, and the pc after it on the fall-through alone
(R85, R87, R152, R153). -/
theorem branchIf_bad {m : Mnemonic} (hm : widthOf m = 2) {taken : Bool} {a : Byte} {s : State}
    (hbad : 255 < s.pc.toNat + 1 ∨ 7 < a.toNat ∨ (taken = false ∧ 255 < s.pc.toNat + 2)) :
    branchIf m taken a s = raise .outOfRange (s.opcode m) s := by
  rcases branchIf_cases hm taken (a := a) (s := s) with hfails | ⟨i, rfl, hpc, hfall, -⟩
  · exact hfails
  · have hreg := regByte_le i
    rcases hbad with hop | hindex | ⟨hnot, hnext⟩
    · omega
    · omega
    · have := hfall hnot
      omega

/-! ### The three instructions -/

/-- JMP is format R with the register's value as target (R151). -/
theorem exec_jmp (a : Byte) (s : State) : exec (.jmp a) s = withR .jmp a s fun i => .next (s.setPc (s.reg i)) := rfl

/-- JEQ is the conditional jump taken at `E` (R152). -/
theorem exec_jeq (a : Byte) (s : State) : exec (.jeq a) s = branchIf .jeq s.fl.E a s := rfl

/-- JNE is the conditional jump taken at the complement of `E` (R153). -/
theorem exec_jne (a : Byte) (s : State) : exec (.jne a) s = branchIf .jne (!s.fl.E) a s := rfl

/-- Settles O25: the checks of format R are all that JMP makes, so `withR_regByte` and `withR_bad` cover it. -/
theorem jmpResultAndFailures : Obligations.JmpResultAndFailures := by
  intro s
  refine ⟨fun i hpc => ?result, fun a hbad => ?failure, fun a => ?encoding⟩
  case result =>
    rw [exec_jmp, withR_regByte i hpc, setPc_eq]
    rfl
  case failure => rw [exec_jmp, withR_bad hbad, raise_eq]
  case encoding => rfl

/-- Settles O26: `E` decides between the two paths of a conditional jump, and `branchIf_bad` gives every failure. -/
theorem jeqResultAndFailures : Obligations.JeqResultAndFailures := by
  intro s
  refine ⟨fun i hE hpc => ?taken, fun i hE hpc => ?fallThrough, fun a hbad => ?failure, fun a => ?encoding⟩
  case taken =>
    rw [exec_jeq, hE, branchIf_taken i hpc, setPc_eq]
    rfl
  case fallThrough => rw [exec_jeq, hE, branchIf_not_taken rfl i hpc, setPc_eq]
  case failure => rw [exec_jeq, branchIf_bad rfl hbad, raise_eq]
  case encoding => rfl

/-- Settles O27: as JEQ, with the paths exchanged: JNE falls through exactly where `E` is set. -/
theorem jneResultAndFailures : Obligations.JneResultAndFailures := by
  intro s
  refine ⟨fun i hE hpc => ?taken, fun i hE hpc => ?fallThrough, fun a hbad => ?failure, fun a => ?encoding⟩
  case taken =>
    rw [exec_jne, hE, Bool.not_false, branchIf_taken i hpc, setPc_eq]
    rfl
  case fallThrough => rw [exec_jne, hE, Bool.not_true, branchIf_not_taken rfl i hpc, setPc_eq]
  case failure =>
    have hbad' : 255 < s.pc.toNat + 1 ∨ 7 < a.toNat ∨ ((!s.fl.E) = false ∧ 255 < s.pc.toNat + 2) := by
      rwa [Bool.not_eq_false']
    rw [exec_jne, branchIf_bad rfl hbad', raise_eq]
  case encoding => rfl

end Sys2Proof.Machine
end

section
/-! PROOFS. The encoding (30_encoding.md): decoder and encoder undo each other under every `OPCODE` without a byte twice,
and the dispatch class of every byte. -/

namespace Sys2Proof.Machine

open Sys2Proof

variable {T : OpcodeMap} {b : Byte} {m : Mnemonic} {c : Config}

/-! ### Decoder and encoder -/

/-- What the decoder accepts: a byte that heads the instruction's row, then the instruction's operand bytes (R61, R65). -/
theorem decode_eq_ok_iff {bytes rest : List Byte} {i : Instr} :
    decode T bytes = .ok (i, rest) ↔
      ∃ b, mnemonicOf T b = some i.mnemonic ∧ bytes = b :: (i.operandBytes ++ rest) := by
  constructor
  · intro h
    cases bytes with
    | nil => cases h
    | cons b bs =>
      cases hm : mnemonicOf T b with
      | none => rw [decode_unknown hm] at h; cases h
      | some m =>
        rw [decode_cons hm] at h
        cases hw : withOperandBytes m bs with
        | none => rw [hw] at h; cases h
        | some r =>
          rw [hw] at h
          cases h
          obtain ⟨rfl, rfl⟩ := withOperandBytes_eq_some hw
          exact ⟨b, hm, rfl⟩
  · rintro ⟨b, hm, rfl⟩
    rw [decode_cons hm, withOperandBytes_operandBytes]

/-- Settles O5: the opcode byte looks its own row up, and the row takes the operand bytes back. -/
theorem decodeOfEncodeIsTheInstruction : Obligations.DecodeOfEncodeIsTheInstruction := by
  intro T hT i rest
  exact decode_eq_ok_iff.mpr ⟨opcodeOf T i.mnemonic, mnemonicOf_opcodeOf hT i.mnemonic, rfl⟩

/-- Settles O6: the byte that heads the row is the row's opcode byte, so encoding gives it back. -/
theorem encodeOfDecodeIsTheBytes : Obligations.EncodeOfDecodeIsTheBytes := by
  intro T bytes rest i h
  obtain ⟨b, hb, rfl⟩ := decode_eq_ok_iff.mp h
  rw [encode, opcodeOf_of_mnemonicOf hb, List.cons_append]

/-- Settles O7, by running the decoder on the words. -/
theorem wordsOfTheOpcodeMapDecode : Obligations.WordsOfTheOpcodeMapDecode :=
  ⟨rfl, rfl, rfl, rfl, rfl, rfl, rfl, rfl, rfl, rfl⟩

/-! ### Dispatch classes -/

/-- The class that a routing gives under a value of `ALU_EXT` (R63). -/
def routingClass (aluExt : Bool) : Routing → DispatchClass
  | .handler => .handler
  | .alu => .aluSupported
  | .aluExt => if aluExt then .aluSupported else .aluUnsupported

/-- The opcode bytes of the rows that have a given class, in the order of R62. -/
def bytesOfClass (c : Config) (k : DispatchClass) : List Byte :=
  (allMnemonics.filter fun m => routingClass c.aluExt (routingOf m) = k).map (opcodeOf c.opcodes)

/-- The class of a byte that heads a row is its routing's. -/
theorem classOf_eq_routingClass (h : mnemonicOf c.opcodes b = some m) :
    classOf c b = routingClass c.aluExt (routingOf m) := by
  simp only [classOf, h]
  cases routingOf m <;> rfl

/-- A byte is unknown when no row has it (R66). -/
theorem classOf_unknown_iff_not_mem : classOf c b = .unknown ↔ b ∉ allMnemonics.map (opcodeOf c.opcodes) := by
  simp [classOf_unknown_iff, mnemonicOf_eq_none, mem_allMnemonics]

/-- A byte has one of the three other classes when it is the opcode byte of a row of that class. -/
theorem classOf_eq_iff_mem (hT : c.opcodes.Distinct) {k : DispatchClass} (hk : k ≠ .unknown) :
    classOf c b = k ↔ b ∈ bytesOfClass c k := by
  simp only [bytesOfClass, List.mem_map, List.mem_filter, decide_eq_true_eq, mem_allMnemonics, true_and]
  constructor
  · rintro rfl
    cases hm : mnemonicOf c.opcodes b with
    | none => exact absurd ((classOf_unknown_iff c b).mpr hm) hk
    | some m => exact ⟨m, (classOf_eq_routingClass hm).symm, opcodeOf_of_mnemonicOf hm⟩
  · rintro ⟨m, rfl, rfl⟩
    exact classOf_eq_routingClass (mnemonicOf_opcodeOf hT m)

/-- Settles O8: the classes by `classOf_unknown_iff_not_mem` and `classOf_eq_iff_mem`, whose lists under the default
`OPCODE` are the ones written out; the widths and bit 5 row by row. -/
theorem dispatchClassesAndWidths : Obligations.DispatchClassesAndWidths := by
  have hdefault (e : Bool) : (⟨e, defaultOpcodes⟩ : Config).opcodes.Distinct := defaultOpcodes_distinct
  refine ⟨fun c b => (classOf_unknown_iff c b).trans mnemonicOf_eq_none, fun c m hT => ?_,
    fun e b => classOf_unknown_iff_not_mem, fun b => ?_, fun b => ?_, fun b => ?_, fun b => ?_, ?width, ?bit5⟩
  · rw [classOf_eq_routingClass (mnemonicOf_opcodeOf hT m)]
    cases routingOf m <;> rfl
  · exact classOf_eq_iff_mem (hdefault false) (by decide)
  · rw [ne_eq, classOf_eq_iff_mem (hdefault true) (by decide)]
    exact List.not_mem_nil
  · exact classOf_eq_iff_mem (hdefault false) (by decide)
  · exact classOf_eq_iff_mem (hdefault true) (by decide)
  case width => intro m; cases m <;> rfl
  case bit5 => intro m; cases m <;> decide

end Sys2Proof.Machine
end

section
/-! PROOFS. What an instruction commits (R86), in eight shapes, and the frames of `exec` that follow from them: which
instruction writes memory, a register, FL, the output channel or the run state, and that no other does. -/

namespace Sys2Proof.Machine

open Sys2Proof

variable {ins : Instr} {s t : State}

/-! ### The shapes of a commit -/

/-- The instructions that write the result of their row to register `i` and nothing else but the pc (R23): LDI and the
ALU rows. -/
def WritesResult (ins : Instr) (i : RegIx) : Prop :=
  (∃ imm, ins = .ldi (regByte i) imm) ∨
    ∃ b, ins = .add (regByte i) b ∨ ins = .mul (regByte i) b ∨ ins = .sub (regByte i) b ∨ ins = .and (regByte i) b ∨
      ins = .or (regByte i) b ∨ ins = .xor (regByte i) b

/-- What an instruction that does not fail may leave behind, with the values it computes left open. -/
inductive Commit (s : State) : Instr → State → Prop where
  | halts : Commit s .hlt s.halt
  | result {ins : Instr} {i : RegIx} (hdest : WritesResult ins i) (v : Byte) :
      Commit s ins ((s.setReg i v).setPc (s.pc + 3))
  | emits (i : RegIx) : Commit s (.prn (regByte i)) ((s.emit (s.reg i)).setPc (s.pc + 2))
  | stores {ins : Instr} (hstore : ∃ a, ins = .push a ∨ ins = .call a) (hsp : 1 ≤ s.sp.toNat) (v p : Byte) :
      Commit s ins (((s.setReg spIndex (s.sp - 1)).memWrite (s.sp - 1) v).setPc p)
  | pops (i : RegIx) (v sp : Byte) :
      Commit s (.pop (regByte i)) (((s.setReg i v).setReg spIndex sp).setPc (s.pc + 2))
  | returns (sp p : Byte) : Commit s .ret ((s.setReg spIndex sp).setPc p)
  | compares (a b u v : Byte) : Commit s (.cmp a b) ((s.setFlags (compareFlags u v)).setPc (s.pc + 3))
  | jumps {ins : Instr} (hjump : ∃ a, ins = .jmp a ∨ ins = .jeq a ∨ ins = .jne a) (p : Byte) :
      Commit s ins (s.setPc p)

/-- Every effect has one of the shapes. -/
theorem commit_of_effect (h : Effect ins s t) : Commit s ins t := by
  cases ins with
  | hlt => cases h; exact .halts
  | ldi a imm => obtain ⟨i, rfl, -, rfl⟩ := h; exact .result (.inl ⟨imm, rfl⟩) _
  | prn a => obtain ⟨i, rfl, -, rfl⟩ := h; exact .emits i
  | push a => obtain ⟨i, rfl, -, hsp, rfl⟩ := h; exact .stores ⟨_, .inl rfl⟩ hsp _ _
  | pop a => obtain ⟨i, rfl, -, -, rfl⟩ := h; exact .pops i _ _
  | call a => obtain ⟨i, rfl, -, hsp, rfl⟩ := h; exact .stores ⟨_, .inr rfl⟩ hsp _ _
  | ret => obtain ⟨-, rfl⟩ := h; exact .returns _ _
  | cmp a b => obtain ⟨i, j, rfl, rfl, -, rfl⟩ := h; exact .compares _ _ _ _
  | jmp a => obtain ⟨i, rfl, -, rfl⟩ := h; exact .jumps ⟨_, .inl rfl⟩ _
  | jeq a => obtain ⟨i, rfl, -, -, rfl⟩ := h; exact .jumps ⟨_, .inr (.inl rfl)⟩ _
  | jne a => obtain ⟨i, rfl, -, -, rfl⟩ := h; exact .jumps ⟨_, .inr (.inr rfl)⟩ _
  | add a b => obtain ⟨i, j, rfl, -, -, rfl⟩ := h; exact .result (by simp [WritesResult]) _
  | mul a b => obtain ⟨i, j, rfl, -, -, rfl⟩ := h; exact .result (by simp [WritesResult]) _
  | sub a b => obtain ⟨i, j, rfl, -, -, -, rfl⟩ := h; exact .result (by simp [WritesResult]) _
  | and a b => obtain ⟨i, j, rfl, -, -, -, rfl⟩ := h; exact .result (by simp [WritesResult]) _
  | or a b => obtain ⟨i, j, rfl, -, -, -, rfl⟩ := h; exact .result (by simp [WritesResult]) _
  | xor a b => obtain ⟨i, j, rfl, -, -, -, rfl⟩ := h; exact .result (by simp [WritesResult]) _

/-- The inversion of `exec` by shapes: a failure, or a commit. -/
theorem exec_commit_cases (h : exec ins s = .next t) :
    (∃ k, t = s.withFailure k (s.opcode ins.mnemonic)) ∨ Commit s ins t :=
  (exec_cases h).imp (fun ⟨k, _, hk⟩ => ⟨k, hk⟩) commit_of_effect

/-- No instruction faults or is refused: `exec` answers a next state, a failure being one. -/
theorem exec_next (ins : Instr) (s : State) : ∃ t, exec ins s = .next t := by
  rcases exec_answers ins s with ⟨k, -, he⟩ | ⟨t, -, he⟩
  · exact ⟨s.withFailure k (s.opcode ins.mnemonic), he⟩
  · exact ⟨t, he⟩

/-! ### Which piece of state each shape writes -/

namespace Commit

theorem cfg_eq (h : Commit s ins t) : t.cfg = s.cfg := by
  cases h <;> rfl

/-- Only HLT commits a run state. -/
theorem run_cases (h : Commit s ins t) : t.run = s.run ∨ (ins = .hlt ∧ t = s.halt) := by
  cases h with
  | halts => exact .inr ⟨rfl, rfl⟩
  | _ => exact .inl rfl

/-- Only CMP writes FL, by a comparison. -/
theorem fl_cases (h : Commit s ins t) :
    t.fl = s.fl ∨ ∃ a b u v, ins = .cmp a b ∧ t.fl = compareFlags u v := by
  cases h with
  | compares a b u v => exact .inr ⟨a, b, u, v, rfl, rfl⟩
  | _ => exact .inl rfl

/-- Only PRN writes the output channel, by its register's value. -/
theorem out_cases (h : Commit s ins t) :
    t.out = s.out ∨ ∃ i, ins = .prn (regByte i) ∧ t.out = s.out ++ [s.reg i] := by
  cases h with
  | emits i => exact .inr ⟨i, rfl, rfl⟩
  | _ => exact .inl rfl

/-- Only PUSH and CALL write memory, one byte at `SP - 1`, where SP then points. -/
theorem mem_cases (h : Commit s ins t) :
    t.mem = s.mem ∨
      (∃ a, ins = .push a ∨ ins = .call a) ∧ 1 ≤ s.sp.toNat ∧ t.sp = s.sp - 1 ∧
        ∃ v, t.mem = (s.memWrite (s.sp - 1) v).mem := by
  cases h with
  | stores hstore hsp v p => exact .inr ⟨hstore, hsp, reg_setReg_same s spIndex _, v, rfl⟩
  | _ => exact .inl rfl

/-- A byte of memory changes only under PUSH and CALL, and only at `SP - 1`. -/
theorem memRead_cases (h : Commit s ins t) :
    (∀ a, t.memRead a = s.memRead a) ∨
      (∃ a, ins = .push a ∨ ins = .call a) ∧ 1 ≤ s.sp.toNat ∧ t.sp = s.sp - 1 ∧
        ∀ a, a ≠ s.sp - 1 → t.memRead a = s.memRead a := by
  rcases h.mem_cases with heq | ⟨hstore, hsp, hsp', v, heq⟩
  · exact .inl fun a => by simp only [State.memRead, heq]
  · refine .inr ⟨hstore, hsp, hsp', fun a ha => ?_⟩
    have hread : t.memRead a = (s.memWrite (s.sp - 1) v).memRead a := by simp only [State.memRead, heq]
    rw [hread, memRead_memWrite, if_neg ha]

/-- A register is as before unless it is the destination of a result or of a POP, or it is SP under a stack
instruction. -/
theorem reg_cases (h : Commit s ins t) (r : RegIx) :
    t.reg r = s.reg r ∨ WritesResult ins r ∨ ins = .pop (regByte r) ∨
      (r = 7 ∧ (ins = .ret ∨ ∃ a, ins = .push a ∨ ins = .pop a ∨ ins = .call a)) := by
  cases h with
  | @result _ i hdest v =>
    by_cases hr : i = r
    · exact .inr (.inl (hr ▸ hdest))
    · exact .inl (reg_setReg_other s i r v hr)
  | stores hstore hsp v p =>
    by_cases hr : spIndex = r
    · obtain ⟨a, ha⟩ := hstore
      exact .inr (.inr (.inr ⟨hr.symm, .inr ⟨a, ha.imp_right .inr⟩⟩))
    · exact .inl (reg_setReg_other s spIndex r _ hr)
  | pops i v sp =>
    by_cases hr : spIndex = r
    · exact .inr (.inr (.inr ⟨hr.symm, .inr ⟨_, .inr (.inl rfl)⟩⟩))
    · by_cases hi : i = r
      · exact .inr (.inr (.inl (hi ▸ rfl)))
      · refine .inl ?_
        rw [reg_setPc, reg_setReg_other _ _ _ _ hr, reg_setReg_other _ _ _ _ hi]
  | returns sp p =>
    by_cases hr : spIndex = r
    · exact .inr (.inr (.inr ⟨hr.symm, .inl rfl⟩))
    · exact .inl (reg_setReg_other s spIndex r _ hr)
  | _ => exact .inl rfl

end Commit

/-! ### The frames of `exec` -/

/-- Settles O40: a failure writes no register, and a commit only those that `Commit.reg_cases` names. -/
theorem registersFrame : Obligations.RegistersFrame := by
  intro ins s t r h hno
  rcases exec_commit_cases h with ⟨k, rfl⟩ | hc
  · rfl
  · rcases hc.reg_cases r with heq | (hldi | halu) | hpop | hsp
    · exact heq
    · exact absurd (.inl hldi) hno
    · exact absurd (.inr (.inr (.inl halu))) hno
    · exact absurd (.inr (.inl hpop)) hno
    · exact absurd (.inr (.inr (.inr hsp))) hno

/-- Settles O41: the one cell written is the slot `SP - 1`, and where there is no slot nothing is stored. -/
theorem storingInstructionsMemoryFrame : Obligations.StoringInstructionsMemoryFrame := by
  intro ins s t _ h
  have hmem : (∀ a, t.memRead a = s.memRead a) ∨
      1 ≤ s.sp.toNat ∧ ∀ a, a ≠ s.sp - 1 → t.memRead a = s.memRead a := by
    rcases exec_commit_cases h with ⟨k, rfl⟩ | hc
    · exact .inl fun _ => rfl
    · exact hc.memRead_cases.imp_right fun ⟨_, hsp, _, hother⟩ => ⟨hsp, hother⟩
  rcases hmem with hall | ⟨hsp, hother⟩
  · exact ⟨fun _ _ a _ => hall a, fun _ => hall⟩
  · rw [pushSlot_ok hsp]
    exact ⟨fun slot hslot a ha => hother a (Option.some.inj hslot ▸ ha), fun hnone => by cases hnone⟩

/-- Settles O42: a failure writes no memory, and the only commit that does is that of PUSH or CALL. -/
theorem otherInstructionsLeaveMemoryAlone : Obligations.OtherInstructionsLeaveMemoryAlone := by
  intro ins s t hother h
  have hmem : t.mem = s.mem := by
    rcases exec_commit_cases h with ⟨k, rfl⟩ | hc
    · rfl
    · rcases hc.mem_cases with heq | ⟨⟨a, hpush | hcall⟩, -⟩
      · exact heq
      · exact absurd hpush (hother a).1
      · exact absurd hcall (hother a).2
  exact ⟨hmem, fun a => by simp only [State.memRead, hmem]⟩

/-- Settles O43: a failure writes the run state alone, and of the commits only CMP's writes FL, only PRN's the output
channel, and only HLT's the run state. -/
theorem flagsOutputRunFrame : Obligations.FlagsOutputRunFrame := by
  intro ins s t h
  rcases exec_commit_cases h with ⟨k, rfl⟩ | hc
  · exact ⟨fun _ => rfl, fun _ => rfl, .inr (.inr ⟨k, rfl⟩), rfl⟩
  · refine ⟨fun hno => ?fl, fun hno => ?out, ?run, hc.cfg_eq⟩
    case fl =>
      rcases hc.fl_cases with heq | ⟨a, b, -, -, hcmp, -⟩
      · exact heq
      · exact absurd hcmp (hno a b)
    case out =>
      rcases hc.out_cases with heq | ⟨i, hprn, -⟩
      · exact heq
      · exact absurd hprn (hno _)
    case run =>
      rcases hc.run_cases with heq | ⟨hhlt, rfl⟩
      · exact .inl heq
      · exact .inr (.inl ⟨hhlt, rfl⟩)

end Sys2Proof.Machine
end

section
/-! PROOFS. What a step can do (60_exceptions.md, 10_state.md): it records a truthful failure and nothing else, or it commits
the instruction it fetched. The invariant and the other rules of the whole machine follow from the two cases. -/

namespace Sys2Proof.Machine

open Sys2Proof

variable {s t : State}

/-! ### The inversion of a step -/

/-- The kind of a failure is the one that the dispatch class of the byte at `pc` gives (R170, R173). -/
def KindAgrees (s : State) (k : FailureKind) : Prop :=
  (k = .unknownOpcode ↔ classOf s.cfg (s.memRead s.pc) = .unknown) ∧
    (k = .unsupportedOperation ↔ classOf s.cfg (s.memRead s.pc) = .aluUnsupported)

/-- A failure that the fetched instruction raises itself has the kind of its class: its row is known and supported. -/
theorem kindAgrees_of_ownFailure {ins : Instr} {k : FailureKind} (hf : fetchDecode s = .ok ins)
    (hk : OwnFailure ins s k) : KindAgrees s k := by
  obtain ⟨-, -, hext, hm⟩ := fetchDecode_ok hf
  have hknown : classOf s.cfg (s.memRead s.pc) ≠ .unknown := by simp [classOf_unknown_iff, hm]
  have hunsupported := (classOf_of_mnemonicOf hm).1
  rcases hk with ⟨rfl, -⟩ | ⟨-, hrow, hoff⟩
  · have : ¬ (routingOf ins.mnemonic = .aluExt ∧ s.cfg.aluExt = false) := fun ⟨hrow, hoff⟩ => by
      simp [hext hrow] at hoff
    exact ⟨by simp [hknown], by simp [hunsupported, this]⟩
  · simp [hext hrow] at hoff

/-- A step starts in Running, and it records a failure whose kind agrees with the byte at `pc`, or commits the
instruction it fetched. -/
theorem step_commit_cases (h : step s = .next t) :
    s.run = .running ∧
      ((∃ k, KindAgrees s k ∧ t = s.withFailure k (s.memRead s.pc)) ∨
        ∃ ins, fetchDecode s = .ok ins ∧ Commit s ins t) := by
  obtain ⟨hr, ⟨k, hf, rfl⟩ | ⟨ins, hf, he⟩⟩ := step_cases h
  · exact ⟨hr, .inl ⟨k, fetchDecode_error hf, rfl⟩⟩
  · refine ⟨hr, ?_⟩
    rcases exec_cases he with ⟨k, hk, rfl⟩ | heffect
    · obtain ⟨hop, -⟩ := fetchDecode_ok hf
      exact .inl ⟨k, kindAgrees_of_ownFailure hf hk, by rw [hop]⟩
    · exact .inr ⟨ins, hf, commit_of_effect heffect⟩

/-! ### The invariant -/

/-- A commit keeps memory canonical: its one store is inside the address space. -/
theorem Commit.wf_mem {ins : Instr} (h : Commit s ins t) (hwf : Memory.wf s.mem) : Memory.wf t.mem := by
  rcases h.mem_cases with heq | ⟨-, -, -, v, heq⟩
  · rwa [heq]
  · rw [heq]
    exact Memory.wf_write v hwf (Nat.le_of_lt_succ (s.sp - 1).isLt)

/-- A state that has not failed has no record to agree with. -/
theorem recordAgrees_of_not_failed (h : t.run = .running ∨ t.run = .halted) : t.recordAgrees := by
  rcases h with h | h <;> simp only [State.recordAgrees, h]

/-- A commit from Running ends in Running or Halted. -/
theorem Commit.not_failed {ins : Instr} (h : Commit s ins t) (hr : s.run = .running) :
    t.run = .running ∨ t.run = .halted := by
  rcases h.run_cases with heq | ⟨-, rfl⟩
  · exact .inl (heq.trans hr)
  · exact .inr rfl

/-- Settles O46: a failing step leaves memory alone and writes a record that agrees; a commit leaves memory canonical and
writes no record. -/
theorem everyStepKeepsInvariant : Obligations.EveryStepKeepsInvariant := by
  rintro s t ⟨hwf, -⟩ h
  obtain ⟨hr, ⟨k, ⟨hunknown, hunsupported⟩, rfl⟩ | ⟨ins, -, hc⟩⟩ := step_commit_cases h
  · exact ⟨hwf, rfl, rfl, hunknown, hunsupported⟩
  · exact ⟨hc.wf_mem hwf, recordAgrees_of_not_failed (hc.not_failed hr)⟩

/-- Settles O44: an image of 256 bytes gives a canonical memory, and a launched state is Running. -/
theorem launchSatisfiesInvariant : Obligations.LaunchSatisfiesInvariant := fun p =>
  ⟨Memory.wf_fromBytes p.initImage.toList 0 (by simp), recordAgrees_of_not_failed (.inl rfl)⟩

/-- Settles O45: the empty list is canonical, and the reset state is Running. -/
theorem resetSatisfiesInvariant : Obligations.ResetSatisfiesInvariant :=
  ⟨reset_mem_wf, recordAgrees_of_not_failed (.inl rfl)⟩

/-! ### The run state and the configuration -/

/-- Settles O30: `step` looks at the run state first. -/
theorem terminalStatesTakeNoStep : Obligations.TerminalStatesTakeNoStep := by
  intro s
  refine ⟨fun hhalted => ?_, fun k fpc fop hfailed => ?_⟩
  · simp only [step, hhalted]
  · simp only [step, hfailed]

/-- Settles O31: in Running the fetch fails, which is a next state, or the fetched instruction answers one (`exec_next`);
`step_cases` gives the converse. -/
theorem stepAnswersNextExactlyWhenRunning : Obligations.StepAnswersNextExactlyWhenRunning := by
  intro s
  refine ⟨fun ⟨t, h⟩ => (step_cases h).1, fun hr => ?_⟩
  cases hf : fetchDecode s with
  | error k => exact ⟨_, step_running_error hr hf⟩
  | ok ins =>
    rw [step_running_ok hr hf]
    exact exec_next ins s

/-- Settles O32: a failure does not halt, and the one commit that halts is HLT's. -/
theorem haltedIsEnteredOnlyByHlt : Obligations.HaltedIsEnteredOnlyByHlt := by
  intro s t h hhalted
  obtain ⟨hr, ⟨k, -, rfl⟩ | ⟨ins, hf, hc⟩⟩ := step_commit_cases h
  · cases hhalted
  · rcases hc.run_cases with heq | ⟨rfl, rfl⟩
    · rw [heq, hr] at hhalted
      cases hhalted
    · obtain ⟨hop, -⟩ := fetchDecode_ok hf
      exact ⟨hop, rfl, rfl, rfl, rfl⟩

/-- Settles O33: a commit does not fail, so the step was a failure, which is `withFailure`. -/
theorem failingStepChangesOnlyTheRunState : Obligations.FailingStepChangesOnlyTheRunState := by
  intro s t k fpc fop h hfailed
  obtain ⟨hr, ⟨k', -, rfl⟩ | ⟨ins, -, hc⟩⟩ := step_commit_cases h
  · cases hfailed
    rfl
  · rcases hc.not_failed hr with hrun | hrun <;> rw [hrun] at hfailed <;> cases hfailed

/-- Settles O54: neither a failure nor a commit writes the configuration. -/
theorem noStepChangesTheConfiguration : Obligations.NoStepChangesTheConfiguration := by
  intro s t h
  obtain ⟨-, ⟨k, -, rfl⟩ | ⟨ins, -, hc⟩⟩ := step_commit_cases h
  · rfl
  · exact hc.cfg_eq

/-! ### Flags -/

/-- Exactly one of E, G and L is set: what a compare leaves (R24, R150). -/
theorem toBits_compareFlags (u v : Byte) :
    (compareFlags u v).toBits = 1#3 ∨ (compareFlags u v).toBits = 2#3 ∨ (compareFlags u v).toBits = 4#3 := by
  rcases compareFlags_cases u v with ⟨-, h⟩ | ⟨-, h⟩ | ⟨-, h⟩ <;> rw [h] <;> decide

/-- A step leaves FL alone, or it fetched CMP and set FL by a comparison. -/
theorem step_fl_cases (h : step s = .next t) :
    t.fl = s.fl ∨ s.memRead s.pc = s.opcode .cmp ∧ ∃ u v, t.fl = compareFlags u v := by
  obtain ⟨-, ⟨k, -, rfl⟩ | ⟨ins, hf, hc⟩⟩ := step_commit_cases h
  · exact .inl rfl
  · rcases hc.fl_cases with heq | ⟨a, b, u, v, rfl, heq⟩
    · exact .inl heq
    · obtain ⟨hop, -⟩ := fetchDecode_ok hf
      exact .inr ⟨hop, u, v, heq⟩

/-- Settles O47: FL is as before or what a compare leaves. -/
theorem everyStepKeepsFlagsOneHot : Obligations.EveryStepKeepsFlagsOneHot := by
  intro s t hone h
  rcases step_fl_cases h with heq | ⟨-, u, v, heq⟩
  · rwa [heq]
  · rw [heq]
    exact toBits_compareFlags u v

/-- Settles O48: a changed FL is what a compare leaves. -/
theorem flagsChangeOnlyByCompare : Obligations.FlagsChangeOnlyByCompare := by
  intro s t h hne
  obtain ⟨hop, u, v, heq⟩ := (step_fl_cases h).resolve_left hne
  rw [heq]
  exact ⟨hop, toBits_compareFlags u v⟩

/-! ### Output and memory -/

/-- Where the one operand byte of a row of width 2 exists, it stands right after the opcode byte. -/
theorem memRead_operand {b : Byte} (h : Memory.bytesAt s.mem (s.pc.toNat + 1) 1 = [b]) : s.memRead (s.pc + 1) = b := by
  by_cases hpc : s.pc.toNat + 1 ≤ lastAddress
  · have haddr : (s.pc + 1).toNat = s.pc.toNat + 1 := by
      have : s.pc.toNat + 1 ≤ 255 := hpc
      bv_omega
    rw [State.memRead, haddr]
    simpa [Memory.bytesAt, hpc] using h
  · simp [Memory.bytesAt, hpc] at h

/-- Settles O49: the one commit that writes the output channel is PRN's, whose operand byte the fetch read at `pc + 1`. -/
theorem outputGrowsOnlyByPrn : Obligations.OutputGrowsOnlyByPrn := by
  intro s t h
  obtain ⟨-, ⟨k, -, rfl⟩ | ⟨ins, hf, hc⟩⟩ := step_commit_cases h
  · exact .inl rfl
  · rcases hc.out_cases with heq | ⟨i, rfl, heq⟩
    · exact .inl heq
    · obtain ⟨hop, hbytes, -⟩ := fetchDecode_ok hf
      exact .inr ⟨hop, i, memRead_operand hbytes, heq⟩

/-- Settles O50: the one store of a commit is that of PUSH or CALL, at `SP - 1`, which is the new SP. -/
theorem memoryChangesOnlyJustBelowSP : Obligations.MemoryChangesOnlyJustBelowSP := by
  intro s t a h hne
  obtain ⟨-, ⟨k, -, rfl⟩ | ⟨ins, hf, hc⟩⟩ := step_commit_cases h
  · exact absurd rfl hne
  · rcases hc.memRead_cases with hall | ⟨hstore, hsp, hsp', hother⟩
    · exact absurd (hall a) hne
    · obtain ⟨hop, -⟩ := fetchDecode_ok hf
      have ha : a = s.sp - 1 := by_contra fun ha => hne (hother a ha)
      have hbelow : (s.sp - 1).toNat + 1 = s.sp.toNat := by bv_omega
      refine ⟨?_, ha ▸ hbelow, hsp'.trans ha.symm⟩
      rcases hstore with ⟨_, rfl | rfl⟩
      · exact .inl hop
      · exact .inr hop

/-! ### What is never read: G, L and the output channel -/

/-- `s` with other flags and another output channel. -/
def State.withUnread (s : State) (f : Flags) (o : List Byte) : State := { s with fl := f, out := o }

/-- An instruction other than CMP and PRN reads of FL only E, writes neither FL nor the output channel, and so has the same
effect whatever G, L and the channel hold. -/
theorem effect_withUnread {ins : Instr} {f : Flags} {o : List Byte} (hcmp : ∀ a b, ins ≠ .cmp a b)
    (hprn : ∀ a, ins ≠ .prn a) (hE : f.E = s.fl.E) (h : Effect ins s t) :
    Effect ins (s.withUnread f o) (t.withUnread f o) := by
  obtain ⟨e, g, l⟩ := f
  cases hE
  cases ins with
  | cmp a b => exact absurd rfl (hcmp a b)
  | prn a => exact absurd rfl (hprn a)
  | hlt => cases h; rfl
  | ldi a imm => obtain ⟨i, rfl, hp, rfl⟩ := h; exact ⟨i, rfl, hp, rfl⟩
  | push a => obtain ⟨i, rfl, hp, hs, rfl⟩ := h; exact ⟨i, rfl, hp, hs, rfl⟩
  | pop a => obtain ⟨i, rfl, hp, hs, rfl⟩ := h; exact ⟨i, rfl, hp, hs, rfl⟩
  | call a => obtain ⟨i, rfl, hp, hs, rfl⟩ := h; exact ⟨i, rfl, hp, hs, rfl⟩
  | ret => obtain ⟨hs, rfl⟩ := h; exact ⟨hs, rfl⟩
  | jmp a => obtain ⟨i, rfl, hp, rfl⟩ := h; exact ⟨i, rfl, hp, rfl⟩
  | jeq a => obtain ⟨i, rfl, hp, hf, rfl⟩ := h; exact ⟨i, rfl, hp, hf, rfl⟩
  | jne a => obtain ⟨i, rfl, hp, hf, rfl⟩ := h; exact ⟨i, rfl, hp, hf, rfl⟩
  | add a b => obtain ⟨i, j, rfl, rfl, hp, rfl⟩ := h; exact ⟨i, j, rfl, rfl, hp, rfl⟩
  | mul a b => obtain ⟨i, j, rfl, rfl, hp, rfl⟩ := h; exact ⟨i, j, rfl, rfl, hp, rfl⟩
  | sub a b => obtain ⟨i, j, rfl, rfl, hp, he, rfl⟩ := h; exact ⟨i, j, rfl, rfl, hp, he, rfl⟩
  | and a b => obtain ⟨i, j, rfl, rfl, hp, he, rfl⟩ := h; exact ⟨i, j, rfl, rfl, hp, he, rfl⟩
  | or a b => obtain ⟨i, j, rfl, rfl, hp, he, rfl⟩ := h; exact ⟨i, j, rfl, rfl, hp, he, rfl⟩
  | xor a b => obtain ⟨i, j, rfl, rfl, hp, he, rfl⟩ := h; exact ⟨i, j, rfl, rfl, hp, he, rfl⟩

/-- Every instruction: under other values of G, L and the output channel it has the same effect, but that FL stays as it
stood or is what CMP leaves, and that the channel grows by the same bytes from what it held. -/
theorem effect_of_unread {ins : Instr} {f : Flags} {o : List Byte} (hE : f.E = s.fl.E) (h : Effect ins s t) :
    ∃ g new, (g = f ∧ t.fl = s.fl ∨ g = t.fl) ∧ t.out = s.out ++ new ∧
      Effect ins (s.withUnread f o) (t.withUnread g (o ++ new)) := by
  obtain ⟨hfl, hout, -⟩ := flagsOutputRunFrame ins s t (exec_of_effect h)
  cases ins with
  | cmp a b =>
    refine ⟨t.fl, [], .inr rfl, by simp [hout], ?_⟩
    obtain ⟨i, j, rfl, rfl, hp, rfl⟩ := h
    rw [List.append_nil]
    exact ⟨i, j, rfl, rfl, hp, rfl⟩
  | prn a =>
    obtain ⟨i, rfl, hp, rfl⟩ := h
    exact ⟨f, [s.reg i], .inl ⟨rfl, rfl⟩, rfl, i, rfl, hp, rfl⟩
  | _ =>
    refine ⟨f, [], .inl ⟨rfl, hfl (by simp)⟩, by simp [hout], ?_⟩
    rw [List.append_nil]
    exact effect_withUnread (by simp) (by simp) hE h

/-- In Running an instruction that fails has no effect: an effect records no failure. -/
theorem no_effect_of_failure {ins : Instr} {k : FailureKind} {op : Byte} (hr : s.run = .running)
    (h : exec ins s = .next (s.withFailure k op)) (t : State) : ¬ Effect ins s t := by
  intro heffect
  have ht : s.withFailure k op = t := by simpa [h] using exec_of_effect heffect
  rcases (commit_of_effect heffect).not_failed hr with hrun | hrun <;> rw [← ht] at hrun <;> cases hrun

/-- Under other values of G, L and the output channel a step goes to the same state but for these, and the channel grows by
the same bytes. -/
theorem step_of_unread {f : Flags} {o : List Byte} (hE : f.E = s.fl.E) (h : step s = .next t) :
    ∃ g new, (g = f ∧ t.fl = s.fl ∨ g = t.fl) ∧ t.out = s.out ++ new ∧
      step (s.withUnread f o) = .next (t.withUnread g (o ++ new)) := by
  obtain ⟨hr, ⟨k, hf, rfl⟩ | ⟨ins, hf, he⟩⟩ := step_cases h
  · refine ⟨f, [], .inl ⟨rfl, rfl⟩, (List.append_nil _).symm, ?_⟩
    rw [List.append_nil]
    exact step_running_error (s := s.withUnread f o) hr hf
  · have hstep : step (s.withUnread f o) = exec ins (s.withUnread f o) := step_running_ok hr hf
    rw [hstep]
    rcases exec_cases he with ⟨k, hk, rfl⟩ | heffect
    · refine ⟨f, [], .inl ⟨rfl, rfl⟩, (List.append_nil _).symm, ?_⟩
      rw [List.append_nil]
      rcases exec_answers ins (s.withUnread f o) with ⟨k', hk', he'⟩ | ⟨u, hu, -⟩
      · rw [he', ownFailure_unique (s := s) (t := s.withUnread f o) rfl hk hk']
        rfl
      · obtain ⟨_, _, -, -, hback⟩ := effect_of_unread (f := s.fl) (o := s.out) hE.symm hu
        exact absurd hback (no_effect_of_failure hr he _)
    · obtain ⟨g, new, hg, hout, heffect'⟩ := effect_of_unread (o := o) hE heffect
      exact ⟨g, new, hg, hout, exec_of_effect heffect'⟩

/-- Settles O51: `step_of_unread` with the channel left as it is. -/
theorem greaterAndLessAreNeverObserved : Obligations.GreaterAndLessAreNeverObserved := by
  intro s t f hE h
  obtain ⟨g, new, hg, hout, hstep⟩ := step_of_unread (o := s.out) hE h
  refine ⟨g, ?_, ?_⟩
  · rcases hg with ⟨rfl, hfl⟩ | rfl
    · rw [hE, hfl]
    · rfl
  · rw [← hout] at hstep
    exact hstep

/-- Settles O52: `step_of_unread` with the flags left as they are. -/
theorem outputIsNeverRead : Obligations.OutputIsNeverRead := by
  intro s t o h
  obtain ⟨g, new, hg, hout, hstep⟩ := step_of_unread (f := s.fl) (o := o) rfl h
  have hfl : g = t.fl := by
    rcases hg with ⟨rfl, hfl⟩ | rfl
    · exact hfl.symm
    · rfl
  exact ⟨new, hout, hfl ▸ hstep⟩

end Sys2Proof.Machine
end

section
/-! PROOFS. Memory and the launch (10_state.md section 8, 20_memory.md): what a launched state holds, what a cell reads as
after any writes, and that canonical memories are determined by their reads. -/

namespace Sys2Proof.Machine

open Sys2Proof

/-! ### Launch and reset -/

/-- The memory of an image reads as the image at every address (R191). -/
theorem memRead_launch (p : LaunchParams) (a : Byte) : (State.launch p).memRead a = p.initImage[a.toNat] := by
  have h := Memory.read_fromBytes p.initImage.toList 0 a.toNat (by simpa using a.isLt)
  rw [Nat.zero_add] at h
  simpa [State.memRead, State.launch] using h

/-- Settles O1: memory by `memRead_launch`, the register file as `initRegs` with SP pushed after it, the rest as it stands in
the definition. -/
theorem launchStateOfEveryPiece : Obligations.LaunchStateOfEveryPiece := by
  intro p
  refine ⟨rfl, rfl, ?sp, fun i => ?regs, rfl, memRead_launch p, rfl, rfl⟩
  case sp => exact Vector.getElem_push_eq
  case regs => exact Vector.getElem_push_lt i.isLt

/-- An image of unlisted bytes lists no cell. -/
theorem fromBytes_replicate_unlisted (n k : Nat) :
    Memory.fromBytes k (List.replicate n Memory.unlisted) = [] := by
  induction n generalizing k with
  | zero => rfl
  | succ n ih => rw [List.replicate_succ, Memory.fromBytes, if_pos rfl, ih]

/-- Settles O2: an image of zeros lists no cell, and the other pieces are the same by evaluation. -/
theorem resetIsLaunchAtNamedValues : Obligations.ResetIsLaunchAtNamedValues := by
  have hmem : Memory.fromBytes 0 (Vector.replicate 256 (0 : Byte)).toList = [] := by
    rw [Vector.toList_replicate]
    exact fromBytes_replicate_unlisted 256 0
  unfold Obligations.ResetIsLaunchAtNamedValues State.launch
  rw [hmem]
  rfl

/-! ### Reads after writes -/

/-- The state after a list of byte writes, in order. -/
def State.writeAll (s : State) (writes : List (Byte × Byte)) : State :=
  writes.foldl (fun s w => s.memWrite w.1 w.2) s

theorem writeAll_concat (s : State) (writes : List (Byte × Byte)) (w : Byte × Byte) :
    s.writeAll (writes ++ [w]) = (s.writeAll writes).memWrite w.1 w.2 :=
  List.foldl_concat ..

/-- A cell reads as the byte of the last write to it, or as before where no write named it (R41). -/
theorem memRead_writeAll (s : State) (writes : List (Byte × Byte)) (a : Byte) :
    (s.writeAll writes).memRead a =
      ((writes.reverse.find? fun w => w.1 == a).map Prod.snd).getD (s.memRead a) := by
  induction writes using List.reverseRecOn with
  | nil => rfl
  | append_singleton writes w ih =>
    rw [writeAll_concat, memRead_memWrite, List.reverse_concat]
    by_cases ha : w.1 = a
    · simp [ha]
    · have ha' : a ≠ w.1 := fun e => ha e.symm
      simp [ha, ha', ih]

/-- Writes change memory and nothing else. -/
theorem writeAll_eq (s : State) (writes : List (Byte × Byte)) :
    s.writeAll writes = { s with mem := (s.writeAll writes).mem } := by
  induction writes using List.reverseRecOn with
  | nil => rfl
  | append_singleton writes w ih =>
    rw [writeAll_concat, ih]
    rfl

/-- Settles O3: the two laws of `writeAll`, from the launch state. -/
theorem memoryReadsLastWriteOrImage : Obligations.MemoryReadsLastWriteOrImage := by
  intro p writes a
  have hread := memRead_writeAll (State.launch p) writes a
  rw [memRead_launch] at hread
  exact ⟨hread, writeAll_eq (State.launch p) writes⟩

/-! ### The canonical form is determined by the reads -/

/-- The first listed cell of a canonical memory is no unlisted byte, and its address is one of the 256. -/
theorem Memory.wf_head {k : Nat} {v : Byte} {m : Memory} (h : Memory.wf ((k, v) :: m)) :
    k ≤ lastAddress ∧ v ≠ Memory.unlisted :=
  h.2 (k, v) List.mem_cons_self

/-- Canonical memories that read alike at every address list their first cell at the same address. -/
theorem Memory.head_le_of_reads {k k' : Nat} {v v' : Byte} {m n : Memory} (hm : Memory.wf ((k, v) :: m))
    (hn : Memory.wf ((k', v') :: n))
    (hread : ∀ a ≤ lastAddress, Memory.read ((k, v) :: m) a = Memory.read ((k', v') :: n) a) : k' ≤ k := by
  by_contra hlt
  have hk := hread k (Memory.wf_head hm).1
  rw [Memory.read_head, Memory.read_below hn (by omega)] at hk
  exact (Memory.wf_head hm).2 hk

/-- A canonical memory that lists a cell does not read as the empty one. -/
theorem Memory.not_reads_empty {k : Nat} {v : Byte} {m : Memory} (hm : Memory.wf ((k, v) :: m)) :
    ¬ ∀ a ≤ lastAddress, Memory.read ((k, v) :: m) a = Memory.read [] a := by
  intro hread
  have hk := hread k (Memory.wf_head hm).1
  rw [Memory.read_head] at hk
  exact (Memory.wf_head hm).2 hk

/-- Two canonical memories that read alike at every address are the same list (log 5). -/
theorem Memory.eq_of_reads {m n : Memory} (hm : Memory.wf m) (hn : Memory.wf n)
    (hread : ∀ a ≤ lastAddress, Memory.read m a = Memory.read n a) : m = n := by
  induction m generalizing n with
  | nil =>
    cases n with
    | nil => rfl
    | cons d n => exact absurd (fun a ha => (hread a ha).symm) (Memory.not_reads_empty hn)
  | cons c m ih =>
    cases n with
    | nil => exact absurd hread (Memory.not_reads_empty hm)
    | cons d n =>
      obtain ⟨k, v⟩ := c
      obtain ⟨k', v'⟩ := d
      have hk : k = k' := Nat.le_antisymm (Memory.head_le_of_reads hn hm fun a ha => (hread a ha).symm)
        (Memory.head_le_of_reads hm hn hread)
      subst hk
      have hv : v = v' := by
        have := hread k (Memory.wf_head hm).1
        rwa [Memory.read_head, Memory.read_head] at this
      have htail : m = n := ih (Memory.wf_tail hm) (Memory.wf_tail hn) fun a ha => by
        by_cases hka : k = a
        · rw [← hka, Memory.read_at_head_of_tail hm, Memory.read_at_head_of_tail hn]
        · have := hread a ha
          rwa [Memory.read_tail hka, Memory.read_tail hka] at this
      rw [hv, htail]

/-- Settles O4: the 256 addresses of a byte are the addresses up to 255. -/
theorem canonicalMemoriesReadingAlikeAreEqual : Obligations.CanonicalMemoriesReadingAlikeAreEqual := by
  intro m n hm hn hread
  refine Memory.eq_of_reads hm hn fun a ha => ?_
  have haddr : (BitVec.ofNat 8 a).toNat = a := Nat.mod_eq_of_lt (Nat.lt_succ_of_le ha)
  simpa only [haddr] using hread (BitVec.ofNat 8 a)

end Sys2Proof.Machine
end

section
/-! PROOFS. The ALU instructions after ADD (41_alu.md): MUL, and SUB, AND, OR and XOR under `ALU_EXT`. -/

namespace Sys2Proof.Machine

open Sys2Proof

variable {m : Mnemonic} {f : Byte → Byte → Byte} {s : State}

/-! ### The two ALU shapes, with the next state written out -/

/-- The result of an ALU instruction: the first register and the pc change, nothing else (R100, R108). -/
theorem aluInstr_result (hm : widthOf m = 3) (i j : RegIx) (hpc : s.pc.toNat + 3 ≤ 255) :
    aluInstr m f (regByte i) (regByte j) s =
      .next { s with x := s.x.set i.val (f s.x[i] s.x[j]) i.isLt, pc := s.pc + 3 } :=
  aluInstr_ok hm i j hpc

/-- What the shape of an optional ALU row answers, clause by clause: its result and its failures under `ALU_EXT`, and
`UnsupportedOperation` without it (R100, R103). -/
structure OptionalAluLaws (m : Mnemonic) (f : Byte → Byte → Byte) (s : State) : Prop where
  result : s.cfg.aluExt = true → ∀ i j : RegIx, s.pc.toNat + 3 ≤ 255 →
    aluExtInstr m f (regByte i) (regByte j) s =
      .next { s with x := s.x.set i.val (f s.x[i] s.x[j]) i.isLt, pc := s.pc + 3 }
  outOfRange : s.cfg.aluExt = true → ∀ a b : Byte, 255 < s.pc.toNat + 3 ∨ 7 < a.toNat ∨ 7 < b.toNat →
    aluExtInstr m f a b s = .next { s with run := .failed .outOfRange s.pc (s.opcode m) }
  unsupported : s.cfg.aluExt = false → ∀ a b : Byte,
    aluExtInstr m f a b s = .next { s with run := .failed .unsupportedOperation s.pc (s.opcode m) }

/-- Every row of three bytes has them, whatever its function. -/
theorem optionalAluLaws (hm : widthOf m = 3) (f : Byte → Byte → Byte) (s : State) : OptionalAluLaws m f s where
  result hext i j hpc := (aluExtInstr_on hext).trans (aluInstr_result hm i j hpc)
  outOfRange hext _ _ hbad := (aluExtInstr_on hext).trans (aluInstr_bad hm hbad)
  unsupported hoff _ _ := aluExtInstr_off hoff

/-! ### The five instructions -/

/-- Settles O10: the ALU shape at the product modulo 256. -/
theorem mulResultAndFailures : Obligations.MulResultAndFailures := fun _ =>
  ⟨fun i j hpc => aluInstr_result (m := .mul) rfl i j hpc, fun _ _ hbad => aluInstr_bad (m := .mul) rfl hbad,
    fun _ _ => rfl⟩

/-- Settles O11: the optional shape at the difference modulo 256. -/
theorem subResultAndFailures : Obligations.SubResultAndFailures := fun s =>
  have laws := optionalAluLaws (m := .sub) rfl aluSub s
  ⟨laws.result, laws.outOfRange, laws.unsupported, fun _ _ => rfl⟩

/-- Settles O12: the optional shape at the bitwise AND. -/
theorem andResultAndFailures : Obligations.AndResultAndFailures := fun s =>
  have laws := optionalAluLaws (m := .and) rfl aluAnd s
  ⟨laws.result, laws.outOfRange, laws.unsupported, fun _ _ => rfl⟩

/-- Settles O13: the optional shape at the bitwise OR. -/
theorem orResultAndFailures : Obligations.OrResultAndFailures := fun s =>
  have laws := optionalAluLaws (m := .or) rfl aluOr s
  ⟨laws.result, laws.outOfRange, laws.unsupported, fun _ _ => rfl⟩

/-- Settles O14: the optional shape at the bitwise exclusive OR. -/
theorem xorResultAndFailures : Obligations.XorResultAndFailures := fun s =>
  have laws := optionalAluLaws (m := .xor) rfl aluXor s
  ⟨laws.result, laws.outOfRange, laws.unsupported, fun _ _ => rfl⟩

end Sys2Proof.Machine
end

section
/-! PROOFS. The stack (43_stack.md): PUSH, POP, CALL and RET with their failures, then the laws of R137 over sequences of
instructions. -/

namespace Sys2Proof.Machine

open Sys2Proof

variable {s t : State} {a : Byte}

/-! ### SP and the slot -/

/-- A register after a write to SP. -/
theorem reg_setSp (s : State) (v : Byte) (i : RegIx) :
    (s.setReg spIndex v).reg i = if i = 7 then v else s.x[i] := by
  split
  · next hi => rw [hi]; exact reg_setReg_same s spIndex v
  · next hi => exact reg_setReg_other s spIndex i v fun e => hi e.symm

/-- SP after a write to another register. -/
theorem sp_setReg_other {i : RegIx} (hi : i ≠ 7) (v : Byte) : (s.setReg i v).sp = s.x[7] :=
  reg_setReg_other s i spIndex v hi

/-- `s` after a push of `v` (R130) with the pc at `p`: what PUSH and CALL commit. -/
def State.pushed (s : State) (v p : Byte) : State :=
  ((s.setReg spIndex (s.sp - 1)).memWrite (s.sp - 1) v).setPc p

/-- A push changes the byte at the slot, SP and the pc, and nothing else. -/
theorem pushed_eq (hsp : 1 ≤ s.x[7].toNat) (v p : Byte) :
    s.pushed v p =
      { s with mem := Memory.write s.mem (s.x[7].toNat - 1) v, x := s.x.set 7 (s.x[7] - 1), pc := p } := by
  have hslot : (s.sp - 1).toNat = s.x[7].toNat - 1 := by
    have hsp' : 1 ≤ s.sp.toNat := hsp
    show (s.sp - 1).toNat = s.sp.toNat - 1
    bv_omega
  rw [← hslot]
  rfl

theorem sp_pushed (s : State) (v p : Byte) : (s.pushed v p).x[7] = s.x[7] - 1 :=
  reg_setReg_same s spIndex _

/-- A push moves SP and no other register. -/
theorem reg_pushed_other (s : State) (v p : Byte) {i : RegIx} (hi : i ≠ 7) : (s.pushed v p).x[i] = s.x[i] :=
  reg_setReg_other s spIndex i _ fun e => hi e.symm

/-- A push writes the slot and no other byte. -/
theorem memRead_pushed (s : State) (v p a : Byte) :
    (s.pushed v p).memRead a = if a = s.x[7] - 1 then v else s.memRead a :=
  memRead_memWrite (s.setReg spIndex (s.sp - 1)) (s.sp - 1) v a

/-! ### The four instructions -/

/-- PUSH pushes its register as it reads after the decrement (R131, R132). -/
theorem exec_push (i : RegIx) (hpc : s.pc.toNat + 2 ≤ 255) (hsp : 1 ≤ s.x[7].toNat) :
    exec (.push (regByte i)) s = .next (s.pushed (if i = 7 then s.x[7] - 1 else s.x[i]) (s.pc + 2)) := by
  rw [← reg_setSp s (s.x[7] - 1) i]
  exact execPush_ok i hpc hsp

/-- CALL pushes the return address and goes to its register as it reads after the decrement (R131, R134). -/
theorem exec_call (i : RegIx) (hpc : s.pc.toNat + 2 ≤ 255) (hsp : 1 ≤ s.x[7].toNat) :
    exec (.call (regByte i)) s = .next (s.pushed (s.pc + 2) (if i = 7 then s.x[7] - 1 else s.x[i])) := by
  rw [← reg_setSp s (s.x[7] - 1) i]
  exact execCall_ok i hpc hsp

/-- Settles O17: `exec_push` with the push written out; `execPush_bad` gives every failure. -/
theorem pushResultAndFailures : Obligations.PushResultAndFailures := by
  intro s
  refine ⟨fun i hpc hsp => ?result, fun a hbad => execPush_bad hbad, fun a => rfl⟩
  rw [exec_push i hpc hsp, pushed_eq hsp]

/-- Settles O19: `exec_call` with the push written out; `execCall_bad` gives every failure. -/
theorem callResultAndFailures : Obligations.CallResultAndFailures := by
  intro s
  refine ⟨fun i hpc hsp => ?result, fun a hbad => execCall_bad hbad, fun a => rfl⟩
  rw [exec_call i hpc hsp, pushed_eq hsp]

/-- The operand byte of R7 is 7, and of no other register. -/
theorem regByte_eq_seven_iff (i : RegIx) : (regByte i).toNat = 7 ↔ i = 7 := by
  revert i; decide

/-- POP fails at a bad field or pc, and where the SP left by its write to the register is 255 (R131, R133). -/
theorem exec_pop_bad (hbad : 255 < s.pc.toNat + 2 ∨ 7 < a.toNat ∨ (a.toNat ≠ 7 ∧ s.x[7].toNat = 255) ∨
      (a.toNat = 7 ∧ (s.memRead s.x[7]).toNat = 255)) :
    exec (.pop a) s = raise .outOfRange (s.opcode .pop) s := by
  rcases regByte_or_bad a with ⟨i, rfl⟩ | hindex
  · have hfield : (regByte i).toNat = 7 ↔ i = 7 := regByte_eq_seven_iff i
    rcases hbad with hpc | hindex | ⟨hi, hsp⟩ | ⟨hi, hsp⟩
    · exact execPop_bad (.inl hpc)
    · exact execPop_bad (.inr hindex)
    · have hsp' : (s.setReg i (s.memRead s.sp)).sp.toNat = 255 := by
        rwa [sp_setReg_other fun e => hi (hfield.mpr e)]
      exact execPop_badSp i (by omega)
    · have hsp' : (s.setReg i (s.memRead s.sp)).sp.toNat = 255 := by
        rw [hfield.mp hi, State.sp, reg_setReg_same]
        exact hsp
      exact execPop_badSp i (by omega)
  · exact execPop_bad (.inr hindex)

/-- Settles O18: for another register than R7 the incremented SP is the old one, for R7 it is the popped byte;
`exec_pop_bad` gives every failure. -/
theorem popResultAndFailures : Obligations.PopResultAndFailures := by
  intro s
  refine ⟨fun i hi hpc hsp => ?other, fun hpc hsp => ?r7, fun a hbad => exec_pop_bad hbad, fun a => rfl⟩
  case other =>
    have hsp' : (s.setReg i (s.memRead s.sp)).sp = s.x[7] := sp_setReg_other hi _
    refine exec_of_effect ⟨i, rfl, hpc, by rwa [hsp'], ?_⟩
    rw [hsp']
    rfl
  case r7 =>
    have hsp' : (s.setReg 7 (s.memRead s.sp)).sp = s.memRead s.x[7] := reg_setReg_same s 7 _
    refine exec_of_effect ⟨7, rfl, hpc, by rwa [hsp'], ?_⟩
    rw [hsp']
    simp [State.setReg, State.setPc]

/-- Settles O20: SP alone decides. -/
theorem retResultAndFailures : Obligations.RetResultAndFailures := by
  intro s
  refine ⟨fun hsp => exec_of_effect ⟨hsp, rfl⟩, fun hsp => ?_, rfl⟩
  have hsp' : s.sp.toNat = 255 := hsp
  exact execRet_bad (by omega)

/-! ### Sequences of instructions -/

/-- An instruction that ends Running goes on with the rest of the sequence. -/
theorem execSeq_cons {ins : Instr} {is : List Instr} (h : exec ins s = .next t) (hr : t.run = .running) :
    execSeq (ins :: is) s = execSeq is t := by
  simp only [execSeq, h, hr]

/-- An instruction that halts or fails ends the sequence. -/
theorem execSeq_cons_ended {ins : Instr} {is : List Instr} (h : exec ins s = .next t) (hr : t.run ≠ .running) :
    execSeq (ins :: is) s = .next t := by
  cases hrun : t.run with
  | running => exact absurd hrun hr
  | halted => simp only [execSeq, h, hrun]
  | failed k fpc fop => simp only [execSeq, h, hrun]

/-- A sequence that ends Running goes on with what is appended to it. -/
theorem execSeq_append {is js : List Instr} (h : execSeq is s = .next t) (hr : t.run = .running) :
    execSeq (is ++ js) s = execSeq js t := by
  induction is generalizing s with
  | nil => cases h; rfl
  | cons ins is ih =>
    obtain ⟨u, he⟩ := exec_next ins s
    by_cases hu : u.run = .running
    · rw [execSeq_cons he hu] at h
      rw [List.cons_append, execSeq_cons he hu, ih h]
    · rw [execSeq_cons_ended he hu] at h
      cases h
      exact absurd hr hu

/-! ### The laws of R137 -/

/-- Settles O21: the push leaves the value at the slot where the pop then reads it, and SP goes down and up by one. -/
theorem pushThenPopMovesTheValue : Obligations.PushThenPopMovesTheValue := by
  intro s r q hr hrsp hqsp hpc hsp
  have hpush := exec_push r (by omega) hsp
  rw [if_neg hrsp] at hpush
  have hsp' := sp_pushed s s.x[r] (s.pc + 2)
  have hvalue : (s.pushed s.x[r] (s.pc + 2)).memRead (s.x[7] - 1) = s.x[r] := by rw [memRead_pushed, if_pos rfl]
  have hpop := (popResultAndFailures (s.pushed s.x[r] (s.pc + 2))).1 q hqsp
    (by show (s.pc + 2).toNat + 2 ≤ 255; bv_omega) (by rw [hsp']; bv_omega)
  rw [hsp', hvalue] at hpop
  refine ⟨_, (execSeq_cons hpush hr).trans (execSeq_cons hpop hr), ?regs, hvalue, fun a ha => ?mem, ?pc, rfl, rfl, hr⟩
  case regs =>
    have hq : q.val ≠ 7 := fun e => hqsp (Fin.ext e)
    show ((s.x.set 7 (s.x[7] - 1)).set q.val s.x[r] q.isLt).set 7 (s.x[7] - 1 + 1) = s.x.set q.val s.x[r] q.isLt
    rw [BitVec.sub_add_cancel, Vector.set_comm _ _ hq, Vector.set_set, Vector.set_getElem_self]
  case mem => exact (memRead_pushed s s.x[r] (s.pc + 2) a).trans (if_neg ha)
  case pc => show s.pc + 2 + 2 = s.pc + 4; bv_omega

/-- Settles O22: RET reads at SP the return address that the CALL stored there, and SP goes back up by one. -/
theorem returnGoesBackAfterItsCall : Obligations.ReturnGoesBackAfterItsCall := by
  intro s t u i hi hpc hsp hcall huSp huSlot
  rw [exec_call i (by omega) hsp, if_neg hi] at hcall
  cases hcall
  rw [memRead_pushed, if_pos rfl] at huSlot
  have hret := (retResultAndFailures u).1 (by rw [huSp]; bv_omega)
  rwa [huSp, huSlot, BitVec.sub_add_cancel] at hret

/-- What a balanced sequence of calls and returns gives back: every register, the flags, the output channel, and memory from
the old SP upward. -/
structure Restores (s t : State) : Prop where
  x : t.x = s.x
  fl : t.fl = s.fl
  out : t.out = s.out
  run : t.run = .running
  mem : ∀ a : Byte, s.x[7].toNat ≤ a.toNat → t.memRead a = s.memRead a

/-- The calls through `targets` and as many returns. -/
def callsThenReturns (targets : List RegIx) : List Instr :=
  targets.map (fun i => Instr.call (regByte i)) ++ List.replicate targets.length Instr.ret

/-- The returns match the calls from the inside out. -/
theorem callsThenReturns_cons (i : RegIx) (targets : List RegIx) :
    callsThenReturns (i :: targets) = Instr.call (regByte i) :: (callsThenReturns targets ++ [Instr.ret]) := by
  simp [callsThenReturns, List.replicate_succ']

/-- Nested calls and returns balance, by induction on the targets: between the outermost CALL and its RET the others give
back SP and the slot above them, so the RET goes back (O22). Without a target nothing is executed and the pc stays. -/
theorem callsThenReturns_restores (targets : List RegIx) (s : State) (hr : s.run = .running)
    (hpc : targets ≠ [] → s.pc.toNat ≤ 253) (hroom : targets.length ≤ s.x[7].toNat) (hsp : ∀ i ∈ targets, i ≠ 7)
    (hinner : ∀ i ∈ targets.dropLast, s.x[i].toNat ≤ 253) :
    ∃ t, execSeq (callsThenReturns targets) s = .next t ∧ Restores s t ∧ (targets ≠ [] → t.pc = s.pc + 2) := by
  induction targets generalizing s with
  | nil => exact ⟨s, rfl, ⟨rfl, rfl, rfl, hr, fun _ _ => rfl⟩, fun h => absurd rfl h⟩
  | cons i targets ih =>
    have hpc' : s.pc.toNat ≤ 253 := hpc (List.cons_ne_nil i targets)
    have hi : i ≠ 7 := hsp i List.mem_cons_self
    have hsp1 : 1 ≤ s.x[7].toNat := by rw [List.length_cons] at hroom; omega
    have hcall := exec_call i (by omega) hsp1
    rw [if_neg hi] at hcall
    have hspIn := sp_pushed s (s.pc + 2) s.x[i]
    have hbelow : (s.x[7] - 1).toNat = s.x[7].toNat - 1 := by bv_omega
    obtain ⟨u, hseq, hu, -⟩ := ih (s.pushed (s.pc + 2) s.x[i]) hr
      (fun hne => hinner i (by simp [List.dropLast_cons_of_ne_nil hne]))
      (by rw [hspIn, hbelow]; rw [List.length_cons] at hroom; omega)
      (fun j hj => hsp j (List.mem_cons_of_mem i hj))
      (fun j hj => by
        have hne : targets ≠ [] := fun e => by simp [e] at hj
        rw [reg_pushed_other s _ _ (hsp j (List.mem_cons_of_mem i (List.mem_of_mem_dropLast hj)))]
        exact hinner j (by simp [List.dropLast_cons_of_ne_nil hne, hj]))
    have huSp : u.x[7] = s.x[7] - 1 := by rw [hu.x, hspIn]
    have hret := returnGoesBackAfterItsCall s _ u i hi hpc' hsp1 hcall huSp (hu.mem _ (by rw [hspIn]))
    refine ⟨{ u with x := u.x.set 7 s.x[7], pc := s.pc + 2 }, ?seq,
      ⟨?x, hu.fl, hu.out, hu.run, fun a ha => ?mem⟩, fun _ => rfl⟩
    case seq =>
      rw [callsThenReturns_cons, execSeq_cons hcall hr, execSeq_append hseq hu.run, execSeq_cons hret hu.run]
      rfl
    case x =>
      have hx : u.x = s.x.set 7 (s.x[7] - 1) := hu.x
      show u.x.set 7 s.x[7] = s.x
      rw [hx, Vector.set_set, Vector.set_getElem_self]
    case mem =>
      have ha' : a ≠ s.x[7] - 1 := fun e => by rw [e, hbelow] at ha; omega
      exact (hu.mem a (by rw [hspIn, hbelow]; omega)).trans
        ((memRead_pushed s (s.pc + 2) s.x[i] a).trans (if_neg ha'))

/-- Settles O23: `callsThenReturns_restores` at a non-empty list. -/
theorem nestedCallsAndReturnsBalance : Obligations.NestedCallsAndReturnsBalance := by
  intro s targets hr hne hpc hroom hsp hinner
  obtain ⟨t, hseq, ht, htpc⟩ := callsThenReturns_restores targets s hr (fun _ => hpc) hroom hsp hinner
  exact ⟨t, hseq, ht.x, htpc hne, ht.fl, ht.out, ht.run, ht.mem⟩

end Sys2Proof.Machine
end

section
/-! PROOFS. Fetch, decode and dispatch (40_execution_loop.md section 2): what a Running step does, told from the opcode byte's
class and from what the three bytes at `pc` decode to; a placed word and a pushed byte are fetched by these rules. -/

namespace Sys2Proof.Machine

open Sys2Proof

variable {s : State} {T : OpcodeMap} {b : Byte} {m : Mnemonic}

/-! ### Bytes at an address -/

/-- Of `n` bytes from `a` upward those up to address 255 exist (R46, R84). -/
theorem Memory.length_bytesAt (mem : Memory) (a n : Nat) : (Memory.bytesAt mem a n).length = min n (256 - a) := by
  induction n generalizing a with
  | zero => simp [Memory.bytesAt]
  | succ n ih =>
    by_cases ha : a ≤ lastAddress
    · have : a ≤ 255 := ha
      simp only [Memory.bytesAt, if_pos ha, List.length_cons, ih]
      omega
    · have : ¬ a ≤ 255 := ha
      simp only [Memory.bytesAt, if_neg ha, List.length_nil]
      omega

/-- Fewer bytes from an address are the first of the more. -/
theorem Memory.take_bytesAt (mem : Memory) (a : Nat) {k n : Nat} (hk : k ≤ n) :
    (Memory.bytesAt mem a n).take k = Memory.bytesAt mem a k := by
  induction k generalizing a n with
  | zero => rfl
  | succ k ih =>
    obtain ⟨n, rfl⟩ : ∃ n', n = n' + 1 := ⟨n - 1, by omega⟩
    by_cases ha : a ≤ lastAddress
    · simp only [Memory.bytesAt, if_pos ha, List.take_succ_cons, ih (a + 1) (Nat.le_of_succ_le_succ hk)]
    · simp only [Memory.bytesAt, if_neg ha, List.take_nil]

/-- Bytes from an address are determined by the reads from there upward. -/
theorem Memory.bytesAt_congr {mem mem' : Memory} {a : Nat} (n : Nat)
    (h : ∀ k, a ≤ k → Memory.read mem k = Memory.read mem' k) : Memory.bytesAt mem a n = Memory.bytesAt mem' a n := by
  induction n generalizing a with
  | zero => rfl
  | succ n ih => rw [Memory.bytesAt, Memory.bytesAt, h a (Nat.le_refl a), ih fun k hk => h k (by omega)]

/-- Storing bytes from an address upward leaves the cells below it alone. -/
theorem Memory.read_storeBytes_below (mem : Memory) {a k : Nat} (bs : List Byte) (hk : k < a) :
    Memory.read (Memory.storeBytes mem a bs) k = Memory.read mem k := by
  induction bs generalizing mem a with
  | nil => rfl
  | cons b bs ih =>
    rw [Memory.storeBytes]
    split
    · rw [ih _ (by omega), Memory.read_write_other _ _ (by omega)]
    · rfl

/-- Bytes stored inside the address space are the bytes found there. -/
theorem Memory.bytesAt_storeBytes (mem : Memory) (a : Nat) (bs : List Byte) (h : a + bs.length ≤ 256) :
    Memory.bytesAt (Memory.storeBytes mem a bs) a bs.length = bs := by
  induction bs generalizing mem a with
  | nil => rfl
  | cons b bs ih =>
    rw [List.length_cons] at h
    have ha : a ≤ lastAddress := by show a ≤ 255; omega
    rw [List.length_cons, Memory.storeBytes, if_pos ha, Memory.bytesAt, if_pos ha, ih _ _ (by omega),
      Memory.read_storeBytes_below _ _ (Nat.lt_succ_self a), Memory.read_write_same]

/-! ### The fetch, from the three bytes at `pc` -/

/-- A row takes no byte beyond its width: the operand assembly is the same on the bytes of the width alone. -/
theorem withOperandBytes_take (m : Mnemonic) (bs : List Byte) :
    (withOperandBytes m (bs.take (widthOf m - 1))).map Prod.fst = (withOperandBytes m bs).map Prod.fst := by
  cases m <;> rcases bs with _ | ⟨x, _ | ⟨y, bs⟩⟩ <;> rfl

/-- The operand assembly fails when the row's width asks for more bytes (R84). -/
theorem withOperandBytes_eq_none_iff {bs : List Byte} : withOperandBytes m bs = none ↔ bs.length < widthOf m - 1 := by
  cases m <;> rcases bs with _ | ⟨x, _ | ⟨y, bs⟩⟩ <;>
    simp [withOperandBytes, takeNone, takeOne, takeTwo, widthOf, formatOf, formatWidth]

/-- The decoder asks for an operand byte when the first byte heads a row that takes more than there are. -/
theorem decode_eq_operandMissing_iff {bs : List Byte} :
    decode T (b :: bs) = .error (.operandMissing m) ↔ mnemonicOf T b = some m ∧ withOperandBytes m bs = none := by
  cases hm : mnemonicOf T b with
  | none => simp [decode_unknown hm]
  | some m' =>
    rw [decode_cons hm]
    constructor
    · intro h
      cases hw : withOperandBytes m' bs with
      | some r => rw [hw] at h; cases h
      | none => rw [hw] at h; cases h; exact ⟨rfl, hw⟩
    · rintro ⟨he, hw⟩
      cases he
      rw [hw]

/-- The operand bytes at `pc`, as many as the widest row has and as exist. -/
def State.operandArea (s : State) : List Byte := Memory.bytesAt s.mem (s.pc.toNat + 1) 2

/-- The fetch of a row that its class does not fail: the row's instruction from the operand bytes after the opcode byte, or
`OutOfRange` where one is missing (R83, R84). -/
theorem fetchDecode_of_row (hm : mnemonicOf s.cfg.opcodes (s.memRead s.pc) = some m)
    (hc : classOf s.cfg (s.memRead s.pc) ≠ .aluUnsupported) :
    fetchDecode s = ((withOperandBytes m s.operandArea).map Prod.fst).elim (.error .outOfRange) .ok := by
  have hunknown : classOf s.cfg (s.memRead s.pc) ≠ .unknown := by simp [classOf_unknown_iff, hm]
  have hwidth : widthOf m - 1 ≤ 2 := by cases m <;> decide
  have harea : s.operandArea.take (widthOf m - 1) = Memory.bytesAt s.mem (s.pc.toNat + 1) (widthOf m - 1) :=
    Memory.take_bytesAt s.mem (s.pc.toNat + 1) hwidth
  have hdec := decode_cons (memRead_pc_of_mnemonic hm ▸ hm)
    (Memory.bytesAt s.mem (s.pc.toNat + 1) (widthOf m - 1))
  rw [← instrBytes_of_mnemonic hm] at hdec
  rw [← withOperandBytes_take, harea]
  unfold fetchDecode
  split
  · next h => exact absurd h hunknown
  · next h => exact absurd h hc
  all_goals
    rw [hdec]
    cases withOperandBytes m (Memory.bytesAt s.mem (s.pc.toNat + 1) (widthOf m - 1)) <;> rfl

/-- The three bytes at `pc` are the opcode byte and the operand area. -/
theorem bytesAt_pc_three (s : State) : Memory.bytesAt s.mem s.pc.toNat 3 = s.memRead s.pc :: s.operandArea :=
  bytesAt_pc s 2

/-! ### A Running step, by what it fetches -/

/-- R66, R83. -/
theorem step_of_unknown (hr : s.run = .running) (hc : classOf s.cfg (s.memRead s.pc) = .unknown) :
    step s = .next { s with run := .failed .unknownOpcode s.pc (s.memRead s.pc) } :=
  step_running_error hr (by simp only [fetchDecode, hc])

/-- R83, R103. -/
theorem step_of_unsupported (hr : s.run = .running) (hc : classOf s.cfg (s.memRead s.pc) = .aluUnsupported) :
    step s = .next { s with run := .failed .unsupportedOperation s.pc (s.memRead s.pc) } :=
  step_running_error hr (by simp only [fetchDecode, hc])

/-- R84. -/
theorem step_of_operandMissing (hr : s.run = .running) (hc : classOf s.cfg (s.memRead s.pc) ≠ .aluUnsupported)
    (hd : decode s.cfg.opcodes (Memory.bytesAt s.mem s.pc.toNat 3) = .error (.operandMissing m)) :
    step s = .next { s with run := .failed .outOfRange s.pc (s.memRead s.pc) } := by
  rw [bytesAt_pc_three] at hd
  obtain ⟨hm, hw⟩ := decode_eq_operandMissing_iff.mp hd
  exact step_running_error hr (by rw [fetchDecode_of_row hm hc, hw]; rfl)

/-- An optional ALU row without `ALU_EXT` fails in its own meaning as it does in the fetch (R103). -/
theorem exec_unsupported {ins : Instr} (hrow : routingOf ins.mnemonic = .aluExt) (hoff : s.cfg.aluExt = false) :
    exec ins s = raise .unsupportedOperation (s.opcode ins.mnemonic) s := by
  cases ins with
  | sub a b => exact aluExtInstr_off hoff
  | and a b => exact aluExtInstr_off hoff
  | or a b => exact aluExtInstr_off hoff
  | xor a b => exact aluExtInstr_off hoff
  | _ => cases hrow

/-- Settles O34: the fetch takes the decoded row's own bytes of the three; where its class fails it, `exec` fails it the
same way. -/
theorem stepRunsTheDecodedInstruction : Obligations.StepRunsTheDecodedInstruction := by
  intro s ins rest hr hd
  rw [bytesAt_pc_three] at hd
  obtain ⟨b, hm, hbytes⟩ := decode_eq_ok_iff.mp hd
  obtain ⟨rfl, harea⟩ := List.cons.inj hbytes
  by_cases hc : classOf s.cfg (s.memRead s.pc) = .aluUnsupported
  · obtain ⟨hrow, hoff⟩ := (classOf_of_mnemonicOf hm).1.mp hc
    rw [step_of_unsupported hr hc, exec_unsupported hrow hoff, memRead_pc_of_mnemonic hm]
    rfl
  · refine step_running_ok hr ?_
    rw [fetchDecode_of_row hm hc, harea, withOperandBytes_operandBytes]
    rfl

/-- Settles O35: no mnemonic's byte is of class unknown, and the bytes written out are those of `allMnemonics`. -/
theorem unknownOpcodeFailsTheRun : Obligations.UnknownOpcodeFailsTheRun := by
  intro s hr
  refine ⟨fun hno => step_of_unknown hr ?_, fun hdefault hno => step_of_unknown hr ?_⟩
  · exact (classOf_unknown_iff _ _).mpr (mnemonicOf_eq_none.mpr fun m e => hno m e.symm)
  · rw [classOf_unknown_iff_not_mem, hdefault]
    exact hno

/-- Settles O36: the four rows are the optional ALU rows, whose class without `ALU_EXT` is unsupported. -/
theorem unsupportedAluOpcodeFailsTheRun : Obligations.UnsupportedAluOpcodeFailsTheRun := by
  intro s hr hoff
  refine ⟨fun m hmem hm => ?_, fun hdefault hbyte => step_of_unsupported hr ?_⟩
  · have hrow : routingOf m = .aluExt := by
      simp only [List.mem_cons, List.not_mem_nil, or_false] at hmem
      rcases hmem with rfl | rfl | rfl | rfl <;> rfl
    rw [← memRead_pc_of_mnemonic hm]
    exact step_of_unsupported hr ((classOf_of_mnemonicOf hm).1.mpr ⟨hrow, hoff⟩)
  · have hcfg : s.cfg = ⟨false, defaultOpcodes⟩ := by rw [← hoff, ← hdefault]
    rw [hcfg, classOf_eq_iff_mem defaultOpcodes_distinct (by decide)]
    exact hbyte

/-- Settles O37: the bytes that exist after the opcode byte are fewer than the row's operand bytes. -/
theorem missingOperandByteFailsTheRun : Obligations.MissingOperandByteFailsTheRun := by
  intro s m hr hm hsupported hwidth
  have hc : classOf s.cfg (s.memRead s.pc) ≠ .aluUnsupported := by
    rw [ne_eq, (classOf_of_mnemonicOf hm).1]
    rintro ⟨hrow, hoff⟩
    rcases hsupported with hon | hrow'
    · rw [hon] at hoff; cases hoff
    · exact hrow' hrow
  have hmissing : withOperandBytes m s.operandArea = none := by
    rw [withOperandBytes_eq_none_iff, State.operandArea, Memory.length_bytesAt]
    omega
  rw [← memRead_pc_of_mnemonic hm]
  refine step_of_operandMissing (m := m) hr hc ?_
  rw [bytesAt_pc_three]
  exact decode_eq_operandMissing_iff.mpr ⟨hm, hmissing⟩

/-! ### A word placed for the next fetch -/

/-- The word placed at `pc` stands there, where its three bytes fit (log 20). -/
theorem bytesAt_withFetchWord (s : State) (nbits w : Nat) (hpc : s.pc.toNat ≤ 253) :
    Memory.bytesAt (s.withFetchWord nbits w).mem s.pc.toNat 3 = tableWordBytes nbits w :=
  Memory.bytesAt_storeBytes s.mem s.pc.toNat (tableWordBytes nbits w)
    (by show s.pc.toNat + 3 ≤ 256; omega)

/-- A table word that decodes under the default `OPCODE` does so with some bytes left over. -/
theorem decode_of_decodeTableWord {nbits w : Nat} {ins : Instr} (h : decodeTableWord nbits w = some ins) :
    ∃ rest, decode defaultOpcodes (tableWordBytes nbits w) = .ok (ins, rest) := by
  unfold decodeTableWord at h
  split at h
  · next i rest hd => cases h; exact ⟨rest, hd⟩
  · cases h

/-- Settles O38: the three bytes at `pc` are the word's, so O34 applies to the state with the word placed. -/
theorem placedTableWordRunsNext : Obligations.PlacedTableWordRunsNext := by
  intro s nbits w ins hr hpc
  have hplaced : ∀ rest, decode s.cfg.opcodes (tableWordBytes nbits w) = .ok (ins, rest) →
      step (s.withFetchWord nbits w) = exec ins (s.withFetchWord nbits w) := fun rest hd =>
    stepRunsTheDecodedInstruction (s.withFetchWord nbits w) ins rest hr
      ((bytesAt_withFetchWord s nbits w hpc).symm ▸ hd)
  refine ⟨hplaced, fun hdefault hword => ?_⟩
  obtain ⟨rest, hd⟩ := decode_of_decodeTableWord hword
  exact hplaced rest (hdefault ▸ hd)

/-! ### A pushed byte is fetched next -/

/-- Where `pc + 1` is an address, the operand area starts with the byte there. -/
theorem operandArea_eq_cons (hpc : s.pc.toNat + 1 ≤ 255) :
    s.operandArea = s.memRead (s.pc + 1) :: Memory.bytesAt s.mem (s.pc.toNat + 2) 1 := by
  have haddr : (s.pc + 1).toNat = s.pc.toNat + 1 := by bv_omega
  have hle : s.pc.toNat + 1 ≤ lastAddress := hpc
  rw [State.operandArea, Memory.bytesAt, if_pos hle, State.memRead, haddr]

/-- A Running step at a row of format R runs the row's instruction at the byte after the opcode byte. -/
theorem step_of_format_R {ins : Instr} {a : Byte} (hr : s.run = .running)
    (hm : mnemonicOf s.cfg.opcodes (s.memRead s.pc) = some ins.mnemonic) (hops : ins.operandBytes = [a])
    (hpc : s.pc.toNat + 1 ≤ 255) (ha : s.memRead (s.pc + 1) = a) : step s = exec ins s := by
  refine stepRunsTheDecodedInstruction s ins (Memory.bytesAt s.mem (s.pc.toNat + 2) 1) hr ?_
  rw [bytesAt_pc_three, operandArea_eq_cons hpc, ha]
  exact decode_eq_ok_iff.mpr ⟨_, hm, by rw [hops]; rfl⟩

/-- A push leaves the bytes after its slot as they were. -/
theorem operandArea_pushed (s : State) (v : Byte) :
    (s.pushed v (s.x[7] - 1)).operandArea = Memory.bytesAt s.mem ((s.x[7] - 1).toNat + 1) 2 :=
  Memory.bytesAt_congr 2 fun _ hk => Memory.read_write_other s.mem v (Nat.ne_of_gt hk)

/-- The four outcomes of the step that fetches a pushed byte (R54, R83, R84). -/
structure FetchesPushed (s t : State) (slot v : Byte) : Prop where
  unknown : classOf s.cfg v = .unknown → step t = .next { t with run := .failed .unknownOpcode slot v }
  unsupported : classOf s.cfg v = .aluUnsupported → step t = .next { t with run := .failed .unsupportedOperation slot v }
  operandMissing : ∀ m, classOf s.cfg v ≠ .aluUnsupported →
    decode s.cfg.opcodes (v :: Memory.bytesAt s.mem (slot.toNat + 1) 2) = .error (.operandMissing m) →
    step t = .next { t with run := .failed .outOfRange slot v }
  runs : ∀ j rest, decode s.cfg.opcodes (v :: Memory.bytesAt s.mem (slot.toNat + 1) 2) = .ok (j, rest) →
    step t = exec j t

/-- A push that goes to its own slot fetches the pushed byte there, with the bytes that followed it before. -/
theorem fetchesPushed (s : State) (v : Byte) (hr : s.run = .running) :
    FetchesPushed s (s.pushed v (s.x[7] - 1)) (s.x[7] - 1) v := by
  have hread : (s.pushed v (s.x[7] - 1)).memRead (s.pushed v (s.x[7] - 1)).pc = v :=
    (memRead_pushed s v _ _).trans (if_pos rfl)
  have hbytes := bytesAt_pc_three (s.pushed v (s.x[7] - 1))
  rw [hread, operandArea_pushed] at hbytes
  refine ⟨fun hc => ?_, fun hc => ?_, fun m hc hd => ?_, fun j rest hd => ?_⟩
  · have h := step_of_unknown (s := s.pushed v _) hr (by rwa [hread])
    rwa [hread] at h
  · have h := step_of_unsupported (s := s.pushed v _) hr (by rwa [hread])
    rwa [hread] at h
  · have h := step_of_operandMissing (s := s.pushed v _) (m := m) hr (by rwa [hread]) (by rwa [hbytes])
    rwa [hread] at h
  · exact stepRunsTheDecodedInstruction (s.pushed v _) j rest hr (by rwa [hbytes])

/-- PUSH with its slot right after it, and CALL with its slot as target, push a byte and go to the slot. -/
theorem step_eq_pushed {i : RegIx} {v : Byte} (hr : s.run = .running) (hpc : s.pc.toNat + 2 ≤ 255)
    (hop : s.memRead (s.pc + 1) = regByte i) (hsp : 1 ≤ s.x[7].toNat)
    (h : (mnemonicOf s.cfg.opcodes (s.memRead s.pc) = some .push ∧ s.x[7] - 1 = s.pc + 2 ∧
        v = (if i = 7 then s.x[7] - 1 else s.x[i])) ∨
      (mnemonicOf s.cfg.opcodes (s.memRead s.pc) = some .call ∧ (i = 7 ∨ s.x[i] = s.x[7] - 1) ∧ v = s.pc + 2)) :
    step s = .next (s.pushed v (s.x[7] - 1)) := by
  rcases h with ⟨hm, hslot, rfl⟩ | ⟨hm, htarget, rfl⟩
  · rw [step_of_format_R (ins := .push (regByte i)) hr hm rfl (by omega) hop, exec_push i hpc hsp, ← hslot]
  · have hgoto : (if i = 7 then s.x[7] - 1 else s.x[i]) = s.x[7] - 1 := by
      split
      · rfl
      · next hi => exact htarget.resolve_left hi
    rw [step_of_format_R (ins := .call (regByte i)) hr hm rfl (by omega) hop, exec_call i hpc hsp, hgoto]

/-- The byte just below SP is the slot. -/
theorem eq_slot_of_below {slot : Byte} : s.x[7].toNat = slot.toNat + 1 → slot = s.x[7] - 1 := by
  intro h
  bv_omega

/-- Settles O39: the step pushes the byte at the slot it goes to, where the next one fetches it. -/
theorem pushedByteIsFetchedNext : Obligations.PushedByteIsFetchedNext := by
  intro s i slot v hr hpc hop hsp h
  obtain rfl := eq_slot_of_below hsp
  have hread : (s.pushed v (s.x[7] - 1)).memRead (s.x[7] - 1) = v := (memRead_pushed s v _ _).trans (if_pos rfl)
  obtain ⟨hunknown, hunsupported, hmissing, hruns⟩ := fetchesPushed s v hr
  exact ⟨s.pushed v (s.x[7] - 1), step_eq_pushed hr hpc hop (by omega) h, hr, rfl, hread, hunknown, hunsupported,
    hmissing, hruns⟩

end Sys2Proof.Machine
end

section
/-! PROOFS. Compare, the branch after it (44_compare_branch.md sections 1 and 3), and HLT (40_execution_loop.md section 3). -/

namespace Sys2Proof.Machine

open Sys2Proof

variable {s : State}

/-! ### CMP -/

/-- The flags of a compare, each by its own relation of the unsigned values (R150). -/
theorem compareFlags_eq (u v : Byte) :
    compareFlags u v =
      { E := decide (u.toNat = v.toNat), G := decide (v.toNat < u.toNat), L := decide (u.toNat < v.toNat) } := by
  rcases compareFlags_cases u v with ⟨hrel, h⟩ | ⟨hrel, h⟩ | ⟨hrel, h⟩
  · simp [h, hrel]
  · simp [h, hrel, hrel.ne', hrel.le]
  · simp [h, hrel, hrel.ne, hrel.le]

/-- CMP checks its next pc and its register fields (R85, R87, R150). -/
theorem no_effect_cmp {a b : Byte} (hbad : 255 < s.pc.toNat + 3 ∨ 7 < a.toNat ∨ 7 < b.toNat) (t : State) :
    ¬ Effect (.cmp a b) s t := by
  rintro ⟨i, j, rfl, rfl, hpc, -⟩
  have hi := regByte_le i
  have hj := regByte_le j
  omega

/-- The result of CMP: the flags of the comparison and the pc change, nothing else. -/
theorem exec_cmp (i j : RegIx) (hpc : s.pc.toNat + 3 ≤ 255) :
    exec (.cmp (regByte i) (regByte j)) s =
      .next { s with fl := compareFlags s.x[i] s.x[j], pc := s.pc + 3 } :=
  exec_of_effect ⟨i, j, rfl, rfl, hpc, rfl⟩

/-- Settles O24: where the checks hold CMP has its effect, whose flags `compareFlags_eq` gives; where one fails it has
none. -/
theorem cmpResultAndFailures : Obligations.CmpResultAndFailures := by
  intro s
  refine ⟨fun i j hpc => ?result, fun a b hbad => ?failure, fun a b => rfl⟩
  case result => rw [exec_cmp i j hpc, compareFlags_eq]
  case failure =>
    have hrow : routingOf .cmp ≠ .aluExt := by decide
    exact exec_outOfRange_of_no_effect hrow (no_effect_cmp hbad)

/-! ### The conditional-branch law (R155) -/

/-- A compare sets E when the two values are equal. -/
theorem compareFlags_E_iff (u v : Byte) : (compareFlags u v).E = true ↔ u = v := by
  rw [compareFlags_eq, decide_eq_true_iff]
  exact BitVec.toNat_inj

/-- JEQ with room for the fall-through goes to its register where E is set, else past itself. -/
theorem exec_jeq_next (i : RegIx) (hpc : s.pc.toNat + 2 ≤ 255) :
    exec (.jeq (regByte i)) s = .next (s.setPc (if s.fl.E then s.x[i] else s.pc + 2)) :=
  exec_of_effect ⟨i, rfl, by omega, fun _ => hpc, rfl⟩

/-- JNE the other way round. -/
theorem exec_jne_next (i : RegIx) (hpc : s.pc.toNat + 2 ≤ 255) :
    exec (.jne (regByte i)) s = .next (s.setPc (if s.fl.E then s.pc + 2 else s.x[i])) :=
  exec_of_effect ⟨i, rfl, by omega, fun _ => hpc, rfl⟩

/-- Settles O28: the branch reads the E that the compare set, which is whether the registers are equal. -/
theorem compareDecidesTheBranchAfterIt : Obligations.CompareDecidesTheBranchAfterIt := by
  intro s a b c hr hpc
  let compared : State := { s with fl := compareFlags s.x[a] s.x[b], pc := s.pc + 3 }
  have hcmp : exec (.cmp (regByte a) (regByte b)) s = .next compared := exec_cmp a b (by omega)
  have hroom : (s.pc + 3).toNat + 2 ≤ 255 := by bv_omega
  have hnext : s.pc + 3 + 2 = s.pc + 5 := by bv_omega
  have hE : compared.fl.E = true ↔ s.x[a] = s.x[b] := compareFlags_E_iff s.x[a] s.x[b]
  refine ⟨_, _, (execSeq_cons hcmp hr).trans (execSeq_cons (exec_jeq_next c hroom) hr),
    (execSeq_cons hcmp hr).trans (execSeq_cons (exec_jne_next c hroom) hr), fun heq => ?equal, fun hne => ?unequal,
    hr, hr⟩
  case equal => exact ⟨if_pos (hE.mpr heq), (if_pos (hE.mpr heq)).trans hnext⟩
  case unequal => exact ⟨(if_neg (mt hE.mp hne)).trans hnext, if_neg (mt hE.mp hne)⟩

/-! ### HLT -/

/-- Settles O29: HLT has no check, and `halt` writes the run state alone. -/
theorem hltHaltsAndChangesNothingElse : Obligations.HltHaltsAndChangesNothingElse :=
  ⟨fun s => ⟨s.halt, exec_of_effect rfl, rfl, rfl⟩, rfl⟩

end Sys2Proof.Machine
end

section
/-! PROOFS. Runs under a step bound (R90, R91, R197): the bounded run is read off the steps. -/

namespace Sys2Proof.Machine

open Sys2Proof

variable {s t : State} {n : Nat}

/-! ### A state steps or has ended -/

/-- A state that is not Running has ended, and only such a state. -/
theorem ended_iff : s.ended = true ↔ s.run ≠ .running := by
  cases h : s.run <;> simp [State.ended, h]

/-- `step` answers no next state exactly where the run has ended (R80, R90, log 1). -/
theorem no_step_iff_ended : (∀ u, step s ≠ .next u) ↔ s.ended = true := by
  rw [ended_iff, ne_eq, ← stepAnswersNextExactlyWhenRunning s, not_exists]

/-! ### The bounded run and the steps, one step at a time -/

theorem runFuel_of_ended (h : s.ended = true) : runFuel n s = some s := by
  cases n <;> simp [runFuel, h]

theorem runFuel_zero_of_running (h : s.run = .running) : runFuel 0 s = none := by
  simp [runFuel, State.ended, h]

theorem runFuel_succ (h : step s = .next t) : runFuel (n + 1) s = runFuel n t := by
  have hr := (step_cases h).1
  simp [runFuel, State.ended, hr, h]

theorem stepsFrom_succ (h : step s = .next t) : stepsFrom (n + 1) s = stepsFrom n t := by
  simp only [stepsFrom, h]

/-- After the end there is no further step. -/
theorem stepsFrom_succ_of_ended (h : s.ended = true) : stepsFrom (n + 1) s = none := by
  have hno := no_step_iff_ended.mpr h
  cases hstep : step s with
  | next t => exact absurd hstep (hno t)
  | fault f => simp only [stepsFrom, hstep]
  | refused r => simp only [stepsFrom, hstep]

/-- Every state has ended or steps to a next one. -/
theorem ended_or_steps (s : State) : s.ended = true ∨ s.run = .running ∧ ∃ t, step s = .next t := by
  by_cases hr : s.run = .running
  · exact .inr ⟨hr, (stepAnswersNextExactlyWhenRunning s).mpr hr⟩
  · exact .inl (ended_iff.mpr hr)

/-! ### The three clauses -/

/-- No result: all the steps answer a next state and the last one is Running. -/
theorem runFuel_eq_none_iff (n : Nat) (s : State) :
    runFuel n s = none ↔ ∃ u, stepsFrom n s = some u ∧ u.run = .running := by
  induction n generalizing s with
  | zero =>
    rcases ended_or_steps s with hend | ⟨hr, -⟩
    · simp [runFuel_of_ended hend, stepsFrom, ended_iff.mp hend]
    · simp [runFuel_zero_of_running hr, stepsFrom, hr]
  | succ n ih =>
    rcases ended_or_steps s with hend | ⟨-, t, hstep⟩
    · simp [runFuel_of_ended hend, stepsFrom_succ_of_ended hend]
    · rw [runFuel_succ hstep, stepsFrom_succ hstep, ih t]

/-- `t` is reached from `s` by at most `n` steps. -/
def ReachesWithin (n : Nat) (s t : State) : Prop := ∃ k, k ≤ n ∧ stepsFrom k s = some t

/-- Where the run has ended only the state itself is reached. -/
theorem reachesWithin_of_ended (h : s.ended = true) : ReachesWithin n s t ↔ s = t := by
  constructor
  · rintro ⟨_ | k, -, hk⟩
    · exact Option.some.inj hk
    · rw [stepsFrom_succ_of_ended h] at hk
      cases hk
  · rintro rfl
    exact ⟨0, Nat.zero_le n, rfl⟩

/-- Where there is a step, a state other than the present one is reached through the next. -/
theorem reachesWithin_succ {u : State} (h : step s = .next u) (hne : s ≠ t) :
    ReachesWithin (n + 1) s t ↔ ReachesWithin n u t := by
  constructor
  · rintro ⟨_ | k, hle, hk⟩
    · exact absurd (Option.some.inj hk) hne
    · exact ⟨k, Nat.le_of_succ_le_succ hle, stepsFrom_succ h ▸ hk⟩
  · rintro ⟨k, hle, hk⟩
    exact ⟨k + 1, Nat.succ_le_succ hle, (stepsFrom_succ h).trans hk⟩

/-- Where the run has ended the result is the state itself, under every bound. -/
theorem runFuel_eq_some_iff_of_ended (h : s.ended = true) :
    runFuel n s = some t ↔ ReachesWithin n s t ∧ t.ended = true := by
  rw [runFuel_of_ended h, Option.some.injEq, reachesWithin_of_ended h]
  exact ⟨fun e => ⟨e, e ▸ h⟩, And.left⟩

/-- A result: a state in which the run has ended, reached by as many steps as the bound allows. -/
theorem runFuel_eq_some_iff (n : Nat) (s t : State) :
    runFuel n s = some t ↔ ReachesWithin n s t ∧ t.ended = true := by
  induction n generalizing s with
  | zero =>
    rcases ended_or_steps s with hend | ⟨hr, -⟩
    · exact runFuel_eq_some_iff_of_ended hend
    · rw [runFuel_zero_of_running hr]
      refine ⟨nofun, fun ⟨⟨k, hle, hk⟩, hend⟩ => ?_⟩
      obtain rfl : k = 0 := Nat.le_zero.mp hle
      cases hk
      exact absurd hr (ended_iff.mp hend)
  | succ n ih =>
    rcases ended_or_steps s with hend | ⟨hr, u, hstep⟩
    · exact runFuel_eq_some_iff_of_ended hend
    · rw [runFuel_succ hstep, ih u]
      have hne (hend : t.ended = true) : s ≠ t := by
        rintro rfl
        exact ended_iff.mp hend hr
      exact and_congr_left fun hend => (reachesWithin_succ hstep (hne hend)).symm

/-- Settles O53: the third clause is the second at a larger bound. -/
theorem boundedRunFollowsItsSteps : Obligations.BoundedRunFollowsItsSteps := by
  intro n s
  refine ⟨runFuel_eq_none_iff n s, fun t => ?_, fun m t hnm h => ?_⟩
  · rw [no_step_iff_ended]
    exact runFuel_eq_some_iff n s t
  · obtain ⟨⟨k, hk, hsteps⟩, hend⟩ := (runFuel_eq_some_iff n s t).mp h
    exact ⟨(runFuel_eq_some_iff m s t).mpr ⟨⟨k, hk.trans hnm, hsteps⟩, hend⟩, hend⟩

end Sys2Proof.Machine
end
